-- ==== Sys2Proof/Word.lean ====
section
/-! DEFINITION. The word types of anti80 (spec/00_scope.md R4, R6, R7). A value is its bit pattern; the signed reading
`s16` of the spec is `BitVec.toInt`, its unsigned reading `u16` is `BitVec.toNat`, and `+`, `-` on patterns are modulo 2^16. -/

namespace Sys2Proof

/-- A 16-bit pattern: a register, the pc, an address, an immediate or an extension value (R7). -/
abbrev Word := BitVec 16

/-- One byte of memory (R29). -/
abbrev Byte := BitVec 8

/-- A 3-bit register index, R0 to R7 (R20). -/
abbrev Reg := BitVec 3

end Sys2Proof
end

