-- ==== Sys2Proof/Config.lean ====
section
/-! DEFINITION. The implementation parameters of anti80 and their domains (spec/00_scope.md R5): "A model takes each of
them as an argument." A machine's parameters are one `Params`. Their defaults stand in Sys2Proof/Machine/Params.lean.
The spec leaves no other value open, so there is no free value here. -/

namespace Sys2Proof

/-- The 15 opcode names of spec/30_encoding.md R64. -/
inductive Opcode where
  | prefixOp | li | add | subr | and | or | xor | shr | sw | sb | lw | lb | lbu | jal | skipc
deriving DecidableEq, Repr

/-- OPCODE_MAP: the 4-bit value of each opcode name (R5, R64). R5 asks for an injective map: `OpcodeMap.wf`. -/
structure OpcodeMap where
  prefixOp : BitVec 4
  li : BitVec 4
  add : BitVec 4
  subr : BitVec 4
  and : BitVec 4
  or : BitVec 4
  xor : BitVec 4
  shr : BitVec 4
  sw : BitVec 4
  sb : BitVec 4
  lw : BitVec 4
  lb : BitVec 4
  lbu : BitVec 4
  jal : BitVec 4
  skipc : BitVec 4
deriving DecidableEq, Repr

/-- SUBR_ORDER (R5, R122). -/
inductive SubrOrder where
  | rs1MinusOperand
  | operandMinusRs1
deriving DecidableEq, Repr

/-- The six variants of Shr (spec/42_shift.md R140, R141). -/
inductive ShiftVariant where
  | srli | srai | srl | sra | slli | sll
deriving DecidableEq, Repr

/-- One entry of SHR_MAP: a shift variant or `reserved` (R5, R141). -/
inductive ShrEntry where
  | variant (v : ShiftVariant)
  | reserved
deriving DecidableEq, Repr

/-- SHR_MAP: an entry for each selector value (sign, src2[4:3]); `sign0sel01` is sign 0 with src2[4:3] = 01 (R5, R141). -/
structure ShrMap where
  sign0sel00 : ShrEntry
  sign0sel01 : ShrEntry
  sign0sel10 : ShrEntry
  sign0sel11 : ShrEntry
  sign1sel00 : ShrEntry
  sign1sel01 : ShrEntry
  sign1sel10 : ShrEntry
  sign1sel11 : ShrEntry
deriving DecidableEq, Repr

/-- JAL_REL_BASE: the Jal's own address `A`, or `A_PLUS_2` (R5, R183). -/
inductive JalRelBase where
  | a
  | aPlus2
deriving DecidableEq, Repr

/-- RESERVED_COND (R5, R185). -/
inductive ReservedCond where
  | fault
  | evalFalse
deriving DecidableEq, Repr

/-- The seven parameters of R5. -/
structure Params where
  opcodeMap : OpcodeMap
  subrOrder : SubrOrder
  shrMap : ShrMap
  storeOffsetAlias : Bool
  loadOffsetAlias : Bool
  jalRelBase : JalRelBase
  reservedCond : ReservedCond
deriving DecidableEq, Repr

end Sys2Proof
end

