-- ==== Sys2Proof/Machine/Params.lean ====
section
/-! DEFINITION. The default values of the parameters (spec/00_scope.md R5, decisions D2, D8 to D12, D15) and the look-ups
in the two maps among them. -/

namespace Sys2Proof

/-- The opcode names in the order of R64's table. -/
def Opcode.all : List Opcode :=
  [.prefixOp, .li, .add, .subr, .and, .or, .xor, .shr, .sw, .sb, .lw, .lb, .lbu, .jal, .skipc]

/-- The 4-bit value OPCODE_MAP gives a name (R64). -/
def OpcodeMap.value (m : OpcodeMap) : Opcode → BitVec 4
  | .prefixOp => m.prefixOp
  | .li => m.li
  | .add => m.add
  | .subr => m.subr
  | .and => m.and
  | .or => m.or
  | .xor => m.xor
  | .shr => m.shr
  | .sw => m.sw
  | .sb => m.sb
  | .lw => m.lw
  | .lb => m.lb
  | .lbu => m.lbu
  | .jal => m.jal
  | .skipc => m.skipc

/-- The name an opcode value stands for; `none` for an unassigned value (R61, R64, R66). -/
def OpcodeMap.nameOf (m : OpcodeMap) (v : BitVec 4) : Option Opcode :=
  Opcode.all.find? (fun o => m.value o == v)

/-- The default OPCODE_MAP (R5, R64, decision D2). -/
def OpcodeMap.default : OpcodeMap :=
  { prefixOp := 0x0, li := 0x1, add := 0x2, subr := 0x3, and := 0x4, or := 0x5, xor := 0x6, shr := 0x7,
    sw := 0x8, sb := 0x9, lw := 0xA, lb := 0xB, lbu := 0xC, jal := 0xD, skipc := 0xE }

/-- The entry of SHR_MAP for a selector (sign, src2[4:3]) (R141, R142). -/
def ShrMap.entry (m : ShrMap) (sign : BitVec 1) (sel : BitVec 2) : ShrEntry :=
  if sign = 0#1 then
    if sel = 0#2 then m.sign0sel00 else if sel = 1#2 then m.sign0sel01
    else if sel = 2#2 then m.sign0sel10 else m.sign0sel11
  else
    if sel = 0#2 then m.sign1sel00 else if sel = 1#2 then m.sign1sel01
    else if sel = 2#2 then m.sign1sel10 else m.sign1sel11

/-- The default SHR_MAP (R141, decision D11). -/
def ShrMap.default : ShrMap :=
  { sign0sel00 := .variant .srli, sign0sel01 := .variant .srli,
    sign0sel10 := .variant .srai, sign0sel11 := .variant .srai,
    sign1sel00 := .variant .srl, sign1sel01 := .variant .sra,
    sign1sel10 := .variant .slli, sign1sel11 := .variant .sll }

/-- The defaults of R5. -/
def Params.default : Params :=
  { opcodeMap := OpcodeMap.default
    subrOrder := .rs1MinusOperand
    shrMap := ShrMap.default
    storeOffsetAlias := true
    loadOffsetAlias := false
    jalRelBase := .a
    reservedCond := .fault }

end Sys2Proof
end

