-- ==== Sys2Proof/Machine/State.lean ====
section
/-! DEFINITION. The state of anti80 (spec/10_state.md): R28's complete list (memory, registers, pc, extension state), the
fault record `halted` (R31), and, as the model's own constant field, the machine's parameters (R5). -/

namespace Sys2Proof.Machine
open Sys2Proof

/-- The extension state (R26). -/
structure Ext where
  mask : Word
  bits : Word
deriving DecidableEq, Repr

/-- The seven faults (spec/60_exceptions.md R222). -/
inductive FaultKind where
  /-- Code 1: the opcode value has no assigned name (R66). -/
  | illegalOpcode
  /-- Code 2: the pc is odd at fetch (R43, R223). -/
  | misalignedFetch
  /-- Code 3: Lw at an odd effective address (R164). -/
  | misalignedLoad
  /-- Code 4: Sw at an odd effective address (R162). -/
  | misalignedStore
  /-- Code 5: Prefix while an extension is pending (R101). -/
  | prefixAfterPrefix
  /-- Code 6: Skipc with dest = 2 or 3 under RESERVED_COND = fault (R185). -/
  | reservedCondition
  /-- Code 7: a Shr selector that SHR_MAP makes `reserved` (R142). -/
  | reservedShift
deriving DecidableEq, Repr

/-- A fault record (kind, pc, word); `word` is `none` for MisalignedFetch alone (R31, R221 to R223). -/
structure FaultRecord where
  kind : FaultKind
  pc : Word
  word : Option Word
deriving DecidableEq, Repr

/-- The memory: (address, byte) pairs in the canonical form `Memory.wf` (Machine/Ops.lean), every address of R29's 65536 that
is not listed reading as 0x00. -/
abbrev Memory := List Host.Cell

/-- The machine state. -/
structure State where
  /-- x[0]..x[7] (R20). -/
  regs : Vector Word 8
  /-- The program counter (R25). -/
  pc : Word
  /-- The extension state (R26). -/
  ext : Ext
  /-- The 65536 bytes (R29). -/
  mem : Memory
  /-- `none`, or the record of the fault that ended the run (R31). -/
  halted : Option FaultRecord
  /-- The model's own field: the parameters of R5, which no step writes (log entry 1). -/
  cfg : Params
deriving DecidableEq, Repr

/-- How a step stops. -/
inductive Fault where
  /-- The machine is halted: raised by `step` alone, at a state whose `halted` holds record `r`; it returns that record, and
  the state is not touched (R221 point 3). Safe: the spec gives the halted machine no other step. -/
  | halted (r : FaultRecord)
deriving DecidableEq, Repr

/-- Why an instruction has no meaning. -/
inductive Refusal where
  /-- An arm of `exec` not written yet would raise it. No arm does: every instruction has its meaning. Safe. -/
  | notModelled (mnemonic : String)
deriving DecidableEq, Repr

/-- What a meaning and a step answer. -/
abbrev Result := Host.Outcome State Fault Refusal

/-- The identity pair, "no pending extension" (R26). -/
def Ext.identity : Ext := { mask := 0xFFFF, bits := 0x0000 }

/-- The machine right after reset (R23, R33, R250), with the default parameters of R5. -/
def State.reset : State :=
  { regs := Vector.replicate 8 0x0000
    pc := 0x0000
    ext := Ext.identity
    mem := []
    halted := none
    cfg := Params.default }

end Sys2Proof.Machine
end

