-- ==== Sys2Proof/Machine/Ops.lean ====
section
/-! DEFINITION. The named operations over memory, registers and the pc, the one commit of a completed step, and taking a
fault (spec/20_memory.md, spec/40_prefix_and_operands.md R107, spec/44_control.md R190, spec/60_exceptions.md R221). -/

namespace Sys2Proof.Machine
open Sys2Proof

/-- What an address that no entry lists reads as: "At reset every byte is 0x00" (R29). -/
def Memory.unlisted : Byte := 0x00

/-- The canonical form: addresses in the address space and strictly rising, and no entry equal to `Memory.unlisted`. -/
def Memory.wf : Memory → Bool
  | [] => true
  | (k, v) :: rest =>
    decide (k < 65536) && decide (v ≠ Memory.unlisted) && rest.all (fun c => decide (k < c.1)) && Memory.wf rest

/-- The byte at an address. -/
def Memory.lookup : Memory → Nat → Byte
  | [], _ => Memory.unlisted
  | (k, v) :: rest, a => if a = k then v else Memory.lookup rest a

/-- The memory with byte `v` at address `a`, in canonical form. -/
def Memory.insert : Memory → Nat → Byte → Memory
  | [], a, v => if v = Memory.unlisted then [] else [(a, v)]
  | (k, w) :: rest, a, v =>
    if a < k then (if v = Memory.unlisted then (k, w) :: rest else (a, v) :: (k, w) :: rest)
    else if a = k then (if v = Memory.unlisted then rest else (a, v) :: rest)
    else (k, w) :: Memory.insert rest a v

/-- MemRead(a, 1) (R40, R41). -/
def Memory.readByte (m : Memory) (a : Word) : Byte :=
  Memory.lookup m a.toNat

/-- MemRead(a, 2) = {mem[a+1], mem[a]}: little-endian (R41). -/
def Memory.readWord (m : Memory) (a : Word) : Word :=
  Memory.readByte m (a + 1) ++ Memory.readByte m a

/-- mem[a] <- v (R41). -/
def Memory.writeByte (m : Memory) (a : Word) (v : Byte) : Memory :=
  Memory.insert m a.toNat v

/-- MemWrite(a, 2, v): mem[a] <- v[7:0]; mem[a+1] <- v[15:8] (R41). -/
def Memory.writeWord (m : Memory) (a : Word) (v : Word) : Memory :=
  Memory.writeByte (Memory.writeByte m a (v.extractLsb' 0 8)) (a + 1) (v.extractLsb' 8 8)

/-- The one store of a step (R45): its width and address, and the 16-bit value of which the low bits are written (R8). -/
inductive MemWrite where
  | byte (a : Word) (v : Word)
  | word (a : Word) (v : Word)
deriving DecidableEq, Repr

/-- The memory after the step's store, if it has one (R41, R45). -/
def Memory.apply (m : Memory) : Option MemWrite → Memory
  | none => m
  | some (.byte a v) => Memory.writeByte m a (v.extractLsb' 0 8)
  | some (.word a v) => Memory.writeWord m a v

/-- x[r], as the step began (R8, R24). No register is hardwired (R21). -/
def State.reg (s : State) (r : Reg) : Word :=
  s.regs[r.toNat]'(r.isLt)

/-- The register file after the step's one register write, if it has one (R107). -/
def State.writePort (s : State) : Option (Reg × Word) → Vector Word 8
  | none => s.regs
  | some (r, v) => s.regs.set r.toNat v r.isLt

/-- The source of the next pc, one for each row of R190's table that completes. -/
inductive PcSelect where
  /-- pc + 2 -/
  | plus2
  /-- pc + 4: Skipc with t = true. -/
  | plus4
  /-- B + (w << 1): Jal, relative. -/
  | relative (w : Word)
  /-- The value of a register: Jal, register-indirect. -/
  | absolute (t : Word)
deriving DecidableEq, Repr

/-- The base B of a relative Jal at `pc` (R183). -/
def relBase : JalRelBase → Word → Word
  | .a, pc => pc
  | .aPlus2, pc => pc + 2

/-- The PC update logic (R190), modulo 2^16. -/
def nextPc (b : JalRelBase) (pc : Word) : PcSelect → Word
  | .plus2 => pc + 2
  | .plus4 => pc + 4
  | .relative w => relBase b pc + (w <<< 1)
  | .absolute t => t

/-- All a completed step does: at most one register write (R107), at most one store (R45), the next extension state, which is
the identity pair for every instruction but Prefix (R104), and the next pc (R190). -/
structure Effects where
  regWrite : Option (Reg × Word) := none
  memWrite : Option MemWrite := none
  ext : Ext := Ext.identity
  pc : PcSelect := .plus2
deriving DecidableEq, Repr

/-- A completed step: all of its effects at once, each computed from the state before the step (R9, R24). -/
def State.commit (s : State) (e : Effects) : State :=
  { s with
    regs := s.writePort e.regWrite
    mem := Memory.apply s.mem e.memWrite
    ext := e.ext
    pc := nextPc s.cfg.jalRelBase s.pc e.pc }

/-- Taking a fault, `raise F(pc, word)`: every effect of the step is abandoned and `halted` receives the record (R221). -/
def State.raise (s : State) (kind : FaultKind) (word : Option Word) : State :=
  { s with halted := some { kind := kind, pc := s.pc, word := word } }

/-- A step of a halted machine: it does nothing and returns the record; there is no return from a fault (R221, R227). -/
def haltedStep (r : FaultRecord) : Result :=
  .fault (.halted r)

/-- The fault codes (R222). -/
def FaultKind.code : FaultKind → Nat
  | .illegalOpcode => 1
  | .misalignedFetch => 2
  | .misalignedLoad => 3
  | .misalignedStore => 4
  | .prefixAfterPrefix => 5
  | .reservedCondition => 6
  | .reservedShift => 7

/-- The host's write of consecutive bytes from address `a`, before the first step (R251). -/
def State.loadBytes (s : State) (a : Word) : List Byte → State
  | [] => s
  | b :: rest => State.loadBytes { s with mem := Memory.writeByte s.mem a b } (a + 1) rest

end Sys2Proof.Machine
end

