-- ==== Sys2Proof/Machine/Operands.lean ====
section
/-! DEFINITION. The operand forms: nominal immediates (spec/30_encoding.md R70 to R75), the prefix-extension unit
(spec/40_prefix_and_operands.md R101 to R104), the ALU operand mux (R105), effective addresses (R160, R161) and shift
amounts (R73, R143). -/

namespace Sys2Proof.Machine
open Sys2Proof

/-- Li's nominal immediate, sext_9({sign, src1, src2}) (R70). -/
def nomLi (sign : BitVec 1) (src1 : BitVec 3) (src2 : BitVec 5) : Word :=
  (sign ++ src1 ++ src2).signExtend 16

/-- The 6-bit nominal immediate, sext_6({sign, src2}) (R71, R72). -/
def nom6 (sign : BitVec 1) (src2 : BitVec 5) : Word :=
  (sign ++ src2).signExtend 16

/-- Jal's nominal word offset, sext_12({sign, dest, src1, src2}) (R74). -/
def nomJal (sign : BitVec 1) (dest src1 : BitVec 3) (src2 : BitVec 5) : Word :=
  (sign ++ dest ++ src1 ++ src2).signExtend 16

/-- The extension a Prefix installs: (0x801F, {dest, src1, src2} << 5) (R75, R101). -/
def prefixExt (dest src1 : BitVec 3) (src2 : BitVec 5) : Ext :=
  { mask := 0x801F, bits := dest ++ src1 ++ src2 ++ 0#5 }

/-- `pending`: the extension state is not the identity pair (R103, decision D26). -/
def State.pending (s : State) : Bool :=
  decide (s.ext ≠ Ext.identity)

/-- `combine(nom)` (R102). -/
def State.combine (s : State) (nom : Word) : Word :=
  (nom &&& s.ext.mask) ||| s.ext.bits

/-- `sel`, the register-select form: no extension pending, sign = 1, src2 in 0..7 (R105). -/
def State.regSelect (s : State) (sign : BitVec 1) (src2 : BitVec 5) : Bool :=
  !s.pending && decide (sign = 1#1) && decide (src2.extractLsb' 3 2 = 0#2)

/-- The register index in src2[2:0], read port RB (R107). -/
def selIndex (src2 : BitVec 5) : Reg :=
  src2.extractLsb' 0 3

/-- The operand mux with the register-select form allowed or not: x[src2[2:0]] or the combined immediate (R105). -/
def State.muxOperand (s : State) (selectAllowed : Bool) (sign : BitVec 1) (src2 : BitVec 5) : Word :=
  if selectAllowed && s.regSelect sign src2 then s.reg (selIndex src2) else s.combine (nom6 sign src2)

/-- opB of Add, Subr, And, Or, Xor and Skipc (R105). -/
def State.operandB (s : State) (sign : BitVec 1) (src2 : BitVec 5) : Word :=
  s.muxOperand true sign src2

/-- The effective address of Lw, Lb and Lbu, modulo 2^16 (R46, R160). -/
def State.loadAddress (s : State) (sign : BitVec 1) (base : Reg) (src2 : BitVec 5) : Word :=
  s.reg base + s.muxOperand s.cfg.loadOffsetAlias sign src2

/-- The effective address of Sw and Sb, modulo 2^16 (R46, R161). -/
def State.storeAddress (s : State) (sign : BitVec 1) (base : Reg) (src2 : BitVec 5) : Word :=
  s.reg base + s.muxOperand s.cfg.storeOffsetAlias sign src2

/-- Whether a 16-bit access at the address is misaligned (R42, R43). -/
def isOdd (a : Word) : Bool :=
  decide (a.extractLsb' 0 1 = 1#1)

/-- The amount of a shift variant, masked to 4 bits (R141, R143): src2[3:0], src2[2:0] or x[src2[2:0]][3:0]. -/
def State.shiftAmount (s : State) (src2 : BitVec 5) : ShiftVariant → BitVec 4
  | .srli => src2.extractLsb' 0 4
  | .srai => src2.extractLsb' 0 4
  | .srl => (s.reg (selIndex src2)).extractLsb' 0 4
  | .sra => (s.reg (selIndex src2)).extractLsb' 0 4
  | .slli => (src2.extractLsb' 0 3).setWidth 4
  | .sll => (s.reg (selIndex src2)).extractLsb' 0 4

/-- shift_v(x, n) of R142, by R144 to R149. -/
def shiftValue (x : Word) (n : BitVec 4) : ShiftVariant → Word
  | .srli => x >>> n.toNat
  | .srai => x.sshiftRight n.toNat
  | .srl => x >>> n.toNat
  | .sra => x.sshiftRight n.toNat
  | .slli => x <<< n.toNat
  | .sll => x <<< n.toNat

/-- The result of Subr by SUBR_ORDER, modulo 2^16 (R122). -/
def subrResult : SubrOrder → Word → Word → Word
  | .rs1MinusOperand, a, b => a - b
  | .operandMinusRs1, a, b => b - a

end Sys2Proof.Machine
end

