-- ==== Sys2Proof/Machine/Alu.lean ====
section
/-! DEFINITION. Li and the ALU instructions (spec/41_li_alu.md R120 to R126). -/

namespace Sys2Proof.Machine
open Sys2Proof

/-- Li: x[dest] <- combine(sext_9({sign, src1, src2})) (R120). -/
def execLi (sign : BitVec 1) (dest : Reg) (src1 : BitVec 3) (src2 : BitVec 5) (s : State) : Result :=
  .next (s.commit { regWrite := some (dest, s.combine (nomLi sign src1 src2)) })

/-- What R121 to R125 share: x[dest] <- x[src1] OP opB. -/
def aluStep (op : Word → Word → Word) (sign : BitVec 1) (dest src1 : Reg) (src2 : BitVec 5) (s : State) : Result :=
  .next (s.commit { regWrite := some (dest, op (s.reg src1) (s.operandB sign src2)) })

/-- Add, modulo 2^16 (R121). -/
def execAdd (sign : BitVec 1) (dest src1 : Reg) (src2 : BitVec 5) (s : State) : Result :=
  aluStep (fun a b => a + b) sign dest src1 src2 s

/-- Subr, by SUBR_ORDER (R122). -/
def execSubr (sign : BitVec 1) (dest src1 : Reg) (src2 : BitVec 5) (s : State) : Result :=
  aluStep (subrResult s.cfg.subrOrder) sign dest src1 src2 s

/-- And (R123). -/
def execAnd (sign : BitVec 1) (dest src1 : Reg) (src2 : BitVec 5) (s : State) : Result :=
  aluStep (fun a b => a &&& b) sign dest src1 src2 s

/-- Or (R124). -/
def execOr (sign : BitVec 1) (dest src1 : Reg) (src2 : BitVec 5) (s : State) : Result :=
  aluStep (fun a b => a ||| b) sign dest src1 src2 s

/-- Xor (R125). -/
def execXor (sign : BitVec 1) (dest src1 : Reg) (src2 : BitVec 5) (s : State) : Result :=
  aluStep (fun a b => a ^^^ b) sign dest src1 src2 s

end Sys2Proof.Machine
end

