-- ==== Sys2Proof/Machine/Flags.lean ====
section
/-! DEFINITION. The machine has no status flags and no condition codes (spec/10_state.md R28): Skipc computes its condition
from its two operands within the step (spec/44_control.md R184). These are the six conditions. -/

namespace Sys2Proof.Machine
open Sys2Proof

/-- The six defined conditions of Skipc (R184). -/
inductive Cond where
  | beq | bne | blt | bge | bltu | bgeu
deriving DecidableEq, Repr

/-- t, the condition on l and r: patterns for beq and bne, `s16` for blt and bge, `u16` for bltu and bgeu (R186 to R192). -/
def Cond.eval : Cond → Word → Word → Bool
  | .beq, l, r => decide (l = r)
  | .bne, l, r => decide (l ≠ r)
  | .blt, l, r => decide (l.toInt < r.toInt)
  | .bge, l, r => decide (l.toInt ≥ r.toInt)
  | .bltu, l, r => decide (l.toNat < r.toNat)
  | .bgeu, l, r => decide (l.toNat ≥ r.toNat)

end Sys2Proof.Machine
end

