-- ==== Sys2Proof/Syntax.lean ====
section
/-! DEFINITION. The instructions of anti80: one constructor per row of spec/opcode_table.json. A constructor's arguments are
the bits its row leaves free, by field of spec/30_encoding.md R60, the ignored ones too, so that no bit of a word is lost.
The six Shr rows are named by the default SHR_MAP; what their selector does under another map is R142 (Machine/Shift.lean). -/

namespace Sys2Proof

/-- One instruction. `sign`, `dest`, `src1` and `src2` are the fields of R60; R65 says how each opcode reads them. -/
inductive Instr where
  /-- R101. `sign` is ignored (D17). -/
  | prefixOp (sign : BitVec 1) (dest src1 : BitVec 3) (src2 : BitVec 5)
  /-- R120. -/
  | li (sign : BitVec 1) (dest : Reg) (src1 : BitVec 3) (src2 : BitVec 5)
  /-- R121. -/
  | add (sign : BitVec 1) (dest src1 : Reg) (src2 : BitVec 5)
  /-- R122. -/
  | subr (sign : BitVec 1) (dest src1 : Reg) (src2 : BitVec 5)
  /-- R123. -/
  | and (sign : BitVec 1) (dest src1 : Reg) (src2 : BitVec 5)
  /-- R124. -/
  | or (sign : BitVec 1) (dest src1 : Reg) (src2 : BitVec 5)
  /-- R125. -/
  | xor (sign : BitVec 1) (dest src1 : Reg) (src2 : BitVec 5)
  /-- R144: Shr with sign = 0, src2 = {0, amount}. -/
  | srli (dest src1 : Reg) (amount : BitVec 4)
  /-- R145: Shr with sign = 0, src2 = {1, amount}. -/
  | srai (dest src1 : Reg) (amount : BitVec 4)
  /-- R146: Shr with sign = 1, src2 = {00, amountReg}. -/
  | srl (dest src1 amountReg : Reg)
  /-- R147: Shr with sign = 1, src2 = {01, amountReg}. -/
  | sra (dest src1 amountReg : Reg)
  /-- R148: Shr with sign = 1, src2 = {10, amount}. -/
  | slli (dest src1 : Reg) (amount : BitVec 3)
  /-- R149: Shr with sign = 1, src2 = {11, amountReg}. -/
  | sll (dest src1 amountReg : Reg)
  /-- R162. The data register is the dest field. -/
  | sw (sign : BitVec 1) (data base : Reg) (src2 : BitVec 5)
  /-- R163. -/
  | sb (sign : BitVec 1) (data base : Reg) (src2 : BitVec 5)
  /-- R164. -/
  | lw (sign : BitVec 1) (dest base : Reg) (src2 : BitVec 5)
  /-- R165. -/
  | lb (sign : BitVec 1) (dest base : Reg) (src2 : BitVec 5)
  /-- R166. -/
  | lbu (sign : BitVec 1) (dest base : Reg) (src2 : BitVec 5)
  /-- R182: Jal with sign = 1 and src2 = {0, low} in 0..15. `dest`, `src1` and `low[3]` are ignored. -/
  | jalr (dest src1 : BitVec 3) (low : BitVec 4)
  /-- R182: Jal with sign = 1 and src2 = {10, target} in 16..23. `dest` and `src1` are ignored. -/
  | jalrHigh (dest src1 : BitVec 3) (target : Reg)
  /-- R183: Jal with sign = 0. -/
  | jal (dest src1 : BitVec 3) (src2 : BitVec 5)
  /-- R183: Jal with sign = 1 and src2 = {11, low} in 24..31. -/
  | jalBack (dest src1 : BitVec 3) (low : BitVec 3)
  /-- R186: Skipc with dest = 0. -/
  | skipcBeq (sign : BitVec 1) (src1 : Reg) (src2 : BitVec 5)
  /-- R187: Skipc with dest = 1. -/
  | skipcBne (sign : BitVec 1) (src1 : Reg) (src2 : BitVec 5)
  /-- R185: Skipc with dest = 2. -/
  | skipcReserved2 (sign : BitVec 1) (src1 : Reg) (src2 : BitVec 5)
  /-- R185: Skipc with dest = 3. -/
  | skipcReserved3 (sign : BitVec 1) (src1 : Reg) (src2 : BitVec 5)
  /-- R188: Skipc with dest = 4. -/
  | skipcBlt (sign : BitVec 1) (src1 : Reg) (src2 : BitVec 5)
  /-- R189: Skipc with dest = 5. -/
  | skipcBge (sign : BitVec 1) (src1 : Reg) (src2 : BitVec 5)
  /-- R191: Skipc with dest = 6. -/
  | skipcBltu (sign : BitVec 1) (src1 : Reg) (src2 : BitVec 5)
  /-- R192: Skipc with dest = 7. -/
  | skipcBgeu (sign : BitVec 1) (src1 : Reg) (src2 : BitVec 5)
  /-- R66: a word whose opcode value has no assigned name (0xF under the default OPCODE_MAP). -/
  | unassigned (opcode : BitVec 4) (sign : BitVec 1) (dest src1 : BitVec 3) (src2 : BitVec 5)
deriving DecidableEq, Repr

end Sys2Proof
end

