-- ==== Sys2Proof/WellFormed.lean ====
section
/-! DEFINITION. Well-formedness. R5 asks OPCODE_MAP to be injective; an `Instr.unassigned` stands for a word only where its
opcode value is assigned to no name (R66). Every other instruction is well formed by the widths of its fields. -/

namespace Sys2Proof

/-- OPCODE_MAP is injective (R5): the 15 values are pairwise distinct. -/
def OpcodeMap.wf (m : OpcodeMap) : Bool :=
  decide (Opcode.all.map m.value).Nodup

/-- The instruction is one that some word encodes under OPCODE_MAP `m`. -/
def Instr.wf (m : OpcodeMap) : Instr → Bool
  | .prefixOp _ _ _ _ => true
  | .li _ _ _ _ => true
  | .add _ _ _ _ => true
  | .subr _ _ _ _ => true
  | .and _ _ _ _ => true
  | .or _ _ _ _ => true
  | .xor _ _ _ _ => true
  | .srli _ _ _ => true
  | .srai _ _ _ => true
  | .srl _ _ _ => true
  | .sra _ _ _ => true
  | .slli _ _ _ => true
  | .sll _ _ _ => true
  | .sw _ _ _ _ => true
  | .sb _ _ _ _ => true
  | .lw _ _ _ _ => true
  | .lb _ _ _ _ => true
  | .lbu _ _ _ _ => true
  | .jalr _ _ _ => true
  | .jalrHigh _ _ _ => true
  | .jal _ _ _ => true
  | .jalBack _ _ _ => true
  | .skipcBeq _ _ _ => true
  | .skipcBne _ _ _ => true
  | .skipcReserved2 _ _ _ => true
  | .skipcReserved3 _ _ _ => true
  | .skipcBlt _ _ _ => true
  | .skipcBge _ _ _ => true
  | .skipcBltu _ _ _ => true
  | .skipcBgeu _ _ _ => true
  | .unassigned op _ _ _ _ => (m.nameOf op).isNone

end Sys2Proof
end

