-- ==== Sys2Proof/Decode.lean ====
section
/-! DEFINITION. The instruction decoder and its inverse (spec/30_encoding.md R60 to R66). -/

namespace Sys2Proof

/-- The five fields of the one instruction format (R60). -/
structure Fields where
  opcode : BitVec 4
  sign : BitVec 1
  dest : BitVec 3
  src1 : BitVec 3
  src2 : BitVec 5
deriving DecidableEq, Repr

/-- Field extraction, R61's `decode(word)`: pure and total. -/
def unpack (w : Word) : Fields :=
  { opcode := w.extractLsb' 12 4
    sign := w.extractLsb' 11 1
    dest := w.extractLsb' 8 3
    src1 := w.extractLsb' 5 3
    src2 := w.extractLsb' 0 5 }

/-- R62's `encode` on fields of the right widths: {opcode, sign, dest, src1, src2}. -/
def pack (f : Fields) : Word :=
  f.opcode ++ f.sign ++ f.dest ++ f.src1 ++ f.src2

/-- The six Shr rows: sign = 0 is told apart by src2[4], sign = 1 by src2[4:3] (R141). -/
def decodeShr (f : Fields) : Instr :=
  if f.sign = 0#1 then
    if f.src2.extractLsb' 4 1 = 0#1 then .srli f.dest f.src1 (f.src2.extractLsb' 0 4)
    else .srai f.dest f.src1 (f.src2.extractLsb' 0 4)
  else if f.src2.extractLsb' 3 2 = 0#2 then .srl f.dest f.src1 (f.src2.extractLsb' 0 3)
  else if f.src2.extractLsb' 3 2 = 1#2 then .sra f.dest f.src1 (f.src2.extractLsb' 0 3)
  else if f.src2.extractLsb' 3 2 = 2#2 then .slli f.dest f.src1 (f.src2.extractLsb' 0 3)
  else .sll f.dest f.src1 (f.src2.extractLsb' 0 3)

/-- The four Jal rows: register-indirect when sign = 1 and src2 < 24, otherwise relative (R181 to R183). -/
def decodeJal (f : Fields) : Instr :=
  if f.sign = 0#1 then .jal f.dest f.src1 f.src2
  else if f.src2.extractLsb' 4 1 = 0#1 then .jalr f.dest f.src1 (f.src2.extractLsb' 0 4)
  else if f.src2.extractLsb' 3 2 = 2#2 then .jalrHigh f.dest f.src1 (f.src2.extractLsb' 0 3)
  else .jalBack f.dest f.src1 (f.src2.extractLsb' 0 3)

/-- The eight Skipc rows: the condition code is the dest field (R184). -/
def decodeSkipc (f : Fields) : Instr :=
  if f.dest = 0#3 then .skipcBeq f.sign f.src1 f.src2
  else if f.dest = 1#3 then .skipcBne f.sign f.src1 f.src2
  else if f.dest = 2#3 then .skipcReserved2 f.sign f.src1 f.src2
  else if f.dest = 3#3 then .skipcReserved3 f.sign f.src1 f.src2
  else if f.dest = 4#3 then .skipcBlt f.sign f.src1 f.src2
  else if f.dest = 5#3 then .skipcBge f.sign f.src1 f.src2
  else if f.dest = 6#3 then .skipcBltu f.sign f.src1 f.src2
  else .skipcBgeu f.sign f.src1 f.src2

/-- The instruction of an opcode name with the word's fields (R64, R65). -/
def decodeNamed (f : Fields) : Opcode → Instr
  | .prefixOp => .prefixOp f.sign f.dest f.src1 f.src2
  | .li => .li f.sign f.dest f.src1 f.src2
  | .add => .add f.sign f.dest f.src1 f.src2
  | .subr => .subr f.sign f.dest f.src1 f.src2
  | .and => .and f.sign f.dest f.src1 f.src2
  | .or => .or f.sign f.dest f.src1 f.src2
  | .xor => .xor f.sign f.dest f.src1 f.src2
  | .shr => decodeShr f
  | .sw => .sw f.sign f.dest f.src1 f.src2
  | .sb => .sb f.sign f.dest f.src1 f.src2
  | .lw => .lw f.sign f.dest f.src1 f.src2
  | .lb => .lb f.sign f.dest f.src1 f.src2
  | .lbu => .lbu f.sign f.dest f.src1 f.src2
  | .jal => decodeJal f
  | .skipc => decodeSkipc f

/-- The instruction with the given fields under OPCODE_MAP `m`: an unassigned opcode value gives `unassigned` (R66). -/
def decodeFields (m : OpcodeMap) (f : Fields) : Instr :=
  match m.nameOf f.opcode with
  | some o => decodeNamed f o
  | none => .unassigned f.opcode f.sign f.dest f.src1 f.src2

/-- The instruction a word stands for under OPCODE_MAP `m`: total over all 2^16 words (R61). -/
def decode (m : OpcodeMap) (w : Word) : Instr :=
  decodeFields m (unpack w)

/-- Why a byte sequence holds no instruction word. -/
inductive DecodeError where
  /-- Fewer than two bytes: every instruction is exactly 2 bytes long (R63). -/
  | truncated
deriving DecidableEq, Repr

/-- The first instruction of a byte sequence and the bytes after it: a word is two bytes, low byte first (R41, R63). -/
def decodeBytes (m : OpcodeMap) : List Byte → Except DecodeError (Instr × List Byte)
  | lo :: hi :: rest => .ok (decode m (hi ++ lo), rest)
  | _ => .error .truncated

/-- The instruction read from a word of `nbits` bits (the bits above are zero) under the default OPCODE_MAP, the table's. -/
def decodeTableWord (nbits w : Nat) : Option Instr :=
  let v : Word := BitVec.ofNat 16 (w % 2 ^ nbits)
  match decodeBytes OpcodeMap.default [v.extractLsb' 0 8, v.extractLsb' 8 8] with
  | .ok (i, _) => some i
  | .error _ => none

/-- The fields of an instruction's word under OPCODE_MAP `m` (R62, R65). -/
def Instr.fields (m : OpcodeMap) : Instr → Fields
  | .prefixOp s d a b => ⟨m.value .prefixOp, s, d, a, b⟩
  | .li s d a b => ⟨m.value .li, s, d, a, b⟩
  | .add s d a b => ⟨m.value .add, s, d, a, b⟩
  | .subr s d a b => ⟨m.value .subr, s, d, a, b⟩
  | .and s d a b => ⟨m.value .and, s, d, a, b⟩
  | .or s d a b => ⟨m.value .or, s, d, a, b⟩
  | .xor s d a b => ⟨m.value .xor, s, d, a, b⟩
  | .srli d a n => ⟨m.value .shr, 0#1, d, a, 0#1 ++ n⟩
  | .srai d a n => ⟨m.value .shr, 0#1, d, a, 1#1 ++ n⟩
  | .srl d a r => ⟨m.value .shr, 1#1, d, a, 0#2 ++ r⟩
  | .sra d a r => ⟨m.value .shr, 1#1, d, a, 1#2 ++ r⟩
  | .slli d a n => ⟨m.value .shr, 1#1, d, a, 2#2 ++ n⟩
  | .sll d a r => ⟨m.value .shr, 1#1, d, a, 3#2 ++ r⟩
  | .sw s d a b => ⟨m.value .sw, s, d, a, b⟩
  | .sb s d a b => ⟨m.value .sb, s, d, a, b⟩
  | .lw s d a b => ⟨m.value .lw, s, d, a, b⟩
  | .lb s d a b => ⟨m.value .lb, s, d, a, b⟩
  | .lbu s d a b => ⟨m.value .lbu, s, d, a, b⟩
  | .jalr d a n => ⟨m.value .jal, 1#1, d, a, 0#1 ++ n⟩
  | .jalrHigh d a r => ⟨m.value .jal, 1#1, d, a, 2#2 ++ r⟩
  | .jal d a b => ⟨m.value .jal, 0#1, d, a, b⟩
  | .jalBack d a n => ⟨m.value .jal, 1#1, d, a, 3#2 ++ n⟩
  | .skipcBeq s a b => ⟨m.value .skipc, s, 0#3, a, b⟩
  | .skipcBne s a b => ⟨m.value .skipc, s, 1#3, a, b⟩
  | .skipcReserved2 s a b => ⟨m.value .skipc, s, 2#3, a, b⟩
  | .skipcReserved3 s a b => ⟨m.value .skipc, s, 3#3, a, b⟩
  | .skipcBlt s a b => ⟨m.value .skipc, s, 4#3, a, b⟩
  | .skipcBge s a b => ⟨m.value .skipc, s, 5#3, a, b⟩
  | .skipcBltu s a b => ⟨m.value .skipc, s, 6#3, a, b⟩
  | .skipcBgeu s a b => ⟨m.value .skipc, s, 7#3, a, b⟩
  | .unassigned op s d a b => ⟨op, s, d, a, b⟩

/-- The word of an instruction under OPCODE_MAP `m` (R62). -/
def encode (m : OpcodeMap) (i : Instr) : Word :=
  pack (i.fields m)

/-- The bytes of an instruction as memory holds them, low byte first (R41). -/
def encodeBytes (m : OpcodeMap) (i : Instr) : List Byte :=
  [(encode m i).extractLsb' 0 8, (encode m i).extractLsb' 8 8]

end Sys2Proof
end

