-- ==== Sys2Proof/Machine/PrefixUnit.lean ====
section
/-! DEFINITION. The Prefix instruction (spec/40_prefix_and_operands.md R100, R101), and the raising of an instruction's own
fault, which records the instruction's word (spec/60_exceptions.md R221, R222). -/

namespace Sys2Proof.Machine
open Sys2Proof

/-- `raise F(pc, word)` by instruction `i`: the record holds the word of `i` under the machine's OPCODE_MAP (R221). -/
def raiseBy (i : Instr) (kind : FaultKind) (s : State) : Result :=
  .next (s.raise kind (some (encode s.cfg.opcodeMap i)))

/-- Prefix: installs an extension, or raises PrefixAfterPrefix when one is pending (R101). -/
def execPrefixOp (sign : BitVec 1) (dest src1 : BitVec 3) (src2 : BitVec 5) (s : State) : Result :=
  if s.pending then raiseBy (.prefixOp sign dest src1 src2) .prefixAfterPrefix s
  else .next (s.commit { ext := prefixExt dest src1 src2 })

end Sys2Proof.Machine
end

