-- ==== Sys2Proof/Machine/Control.lean ====
section
/-! DEFINITION. Jal, Skipc and the unassigned opcode (spec/44_control.md R180 to R193, spec/30_encoding.md R66). -/

namespace Sys2Proof.Machine
open Sys2Proof

/-- What both forms of Jal do: x[7] <- pc + 2, and the pc goes to the target, computed from the old registers (R181). -/
def jalStep (target : PcSelect) (s : State) : Result :=
  .next (s.commit { regWrite := some (7#3, s.pc + 2), pc := target })

/-- jalr with src2 in 0..15: the target is x[src2[2:0]]; dest, src1 and src2[3] are ignored, a pending extension too (R182). -/
def execJalr (_dest _src1 : BitVec 3) (low : BitVec 4) (s : State) : Result :=
  jalStep (.absolute (s.reg (low.extractLsb' 0 3))) s

/-- jalr with src2 in 16..23 (R182). -/
def execJalrHigh (_dest _src1 : BitVec 3) (target : Reg) (s : State) : Result :=
  jalStep (.absolute (s.reg target)) s

/-- jal with sign = 0 (R183). -/
def execJal (dest src1 : BitVec 3) (src2 : BitVec 5) (s : State) : Result :=
  jalStep (.relative (s.combine (nomJal 0#1 dest src1 src2))) s

/-- jal with sign = 1 and src2 in 24..31 (R183). -/
def execJalBack (dest src1 : BitVec 3) (low : BitVec 3) (s : State) : Result :=
  jalStep (.relative (s.combine (nomJal 1#1 dest src1 (3#2 ++ low)))) s

/-- Skipc: pc <- t ? pc + 4 : pc + 2, with t the condition on x[src1] and opB (R184). -/
def skipStep (c : Cond) (sign : BitVec 1) (src1 : Reg) (src2 : BitVec 5) (s : State) : Result :=
  .next (s.commit { pc := if c.eval (s.reg src1) (s.operandB sign src2) then .plus4 else .plus2 })

/-- Skipc beq (R186). -/
def execSkipcBeq (sign : BitVec 1) (src1 : Reg) (src2 : BitVec 5) (s : State) : Result :=
  skipStep .beq sign src1 src2 s

/-- Skipc bne (R187). -/
def execSkipcBne (sign : BitVec 1) (src1 : Reg) (src2 : BitVec 5) (s : State) : Result :=
  skipStep .bne sign src1 src2 s

/-- Skipc with a reserved condition: ReservedCondition, or t = false, by RESERVED_COND (R185). -/
def reservedSkip (i : Instr) (s : State) : Result :=
  match s.cfg.reservedCond with
  | .fault => raiseBy i .reservedCondition s
  | .evalFalse => .next (s.commit {})

/-- Skipc with dest = 2 (R185). -/
def execSkipcReserved2 (sign : BitVec 1) (src1 : Reg) (src2 : BitVec 5) (s : State) : Result :=
  reservedSkip (.skipcReserved2 sign src1 src2) s

/-- Skipc with dest = 3 (R185). -/
def execSkipcReserved3 (sign : BitVec 1) (src1 : Reg) (src2 : BitVec 5) (s : State) : Result :=
  reservedSkip (.skipcReserved3 sign src1 src2) s

/-- Skipc blt (R188). -/
def execSkipcBlt (sign : BitVec 1) (src1 : Reg) (src2 : BitVec 5) (s : State) : Result :=
  skipStep .blt sign src1 src2 s

/-- Skipc bge (R189). -/
def execSkipcBge (sign : BitVec 1) (src1 : Reg) (src2 : BitVec 5) (s : State) : Result :=
  skipStep .bge sign src1 src2 s

/-- Skipc bltu (R191). -/
def execSkipcBltu (sign : BitVec 1) (src1 : Reg) (src2 : BitVec 5) (s : State) : Result :=
  skipStep .bltu sign src1 src2 s

/-- Skipc bgeu (R192). -/
def execSkipcBgeu (sign : BitVec 1) (src1 : Reg) (src2 : BitVec 5) (s : State) : Result :=
  skipStep .bgeu sign src1 src2 s

/-- A word with an unassigned opcode value raises IllegalOpcode (R66). -/
def execUnassigned (opcode : BitVec 4) (sign : BitVec 1) (dest src1 : BitVec 3) (src2 : BitVec 5) (s : State) : Result :=
  raiseBy (.unassigned opcode sign dest src1 src2) .illegalOpcode s

end Sys2Proof.Machine
end

