-- ==== Sys2Proof/Machine/LoadStore.lean ====
section
/-! DEFINITION. The stores and loads (spec/43_load_store.md R160 to R167). -/

namespace Sys2Proof.Machine
open Sys2Proof

/-- Sw: MemWrite(ea, 2, x[dest]); MisalignedStore at an odd ea (R162). -/
def execSw (sign : BitVec 1) (data base : Reg) (src2 : BitVec 5) (s : State) : Result :=
  if isOdd (s.storeAddress sign base src2) then raiseBy (.sw sign data base src2) .misalignedStore s
  else .next (s.commit { memWrite := some (.word (s.storeAddress sign base src2) (s.reg data)) })

/-- Sb: MemWrite(ea, 1, x[dest]) (R163). -/
def execSb (sign : BitVec 1) (data base : Reg) (src2 : BitVec 5) (s : State) : Result :=
  .next (s.commit { memWrite := some (.byte (s.storeAddress sign base src2) (s.reg data)) })

/-- Lw: x[dest] <- MemRead(ea, 2); MisalignedLoad at an odd ea (R164). -/
def execLw (sign : BitVec 1) (dest base : Reg) (src2 : BitVec 5) (s : State) : Result :=
  if isOdd (s.loadAddress sign base src2) then raiseBy (.lw sign dest base src2) .misalignedLoad s
  else .next (s.commit { regWrite := some (dest, Memory.readWord s.mem (s.loadAddress sign base src2)) })

/-- Lb: x[dest] <- sext_8(MemRead(ea, 1)) (R165). -/
def execLb (sign : BitVec 1) (dest base : Reg) (src2 : BitVec 5) (s : State) : Result :=
  .next (s.commit { regWrite := some (dest, (Memory.readByte s.mem (s.loadAddress sign base src2)).signExtend 16) })

/-- Lbu: x[dest] <- zext_8(MemRead(ea, 1)) (R166). -/
def execLbu (sign : BitVec 1) (dest base : Reg) (src2 : BitVec 5) (s : State) : Result :=
  .next (s.commit { regWrite := some (dest, (Memory.readByte s.mem (s.loadAddress sign base src2)).setWidth 16) })

end Sys2Proof.Machine
end

