-- ==== Sys2Proof/Machine/Shift.lean ====
section
/-! DEFINITION. The Shr instructions (spec/42_shift.md R140 to R149). A row of the opcode table fixes the selector
(sign, src2[4:3]); the variant it selects is SHR_MAP's, and under the default map it is the one the row is named by. -/

namespace Sys2Proof.Machine
open Sys2Proof

/-- Shr's common dispatch (R142): `i` is the instruction whose word a ReservedShift records. -/
def shrStep (i : Instr) (sign : BitVec 1) (dest src1 : Reg) (src2 : BitVec 5) (s : State) : Result :=
  match s.cfg.shrMap.entry sign (src2.extractLsb' 3 2) with
  | .reserved => raiseBy i .reservedShift s
  | .variant v => .next (s.commit { regWrite := some (dest, shiftValue (s.reg src1) (s.shiftAmount src2 v) v) })

/-- srli: logical right shift by immediate (R144). -/
def execSrli (dest src1 : Reg) (amount : BitVec 4) (s : State) : Result :=
  shrStep (.srli dest src1 amount) 0#1 dest src1 (0#1 ++ amount) s

/-- srai: arithmetic right shift by immediate (R145). -/
def execSrai (dest src1 : Reg) (amount : BitVec 4) (s : State) : Result :=
  shrStep (.srai dest src1 amount) 0#1 dest src1 (1#1 ++ amount) s

/-- srl: logical right shift by register (R146). -/
def execSrl (dest src1 amountReg : Reg) (s : State) : Result :=
  shrStep (.srl dest src1 amountReg) 1#1 dest src1 (0#2 ++ amountReg) s

/-- sra: arithmetic right shift by register (R147). -/
def execSra (dest src1 amountReg : Reg) (s : State) : Result :=
  shrStep (.sra dest src1 amountReg) 1#1 dest src1 (1#2 ++ amountReg) s

/-- slli: left shift by immediate (R148). -/
def execSlli (dest src1 : Reg) (amount : BitVec 3) (s : State) : Result :=
  shrStep (.slli dest src1 amount) 1#1 dest src1 (2#2 ++ amount) s

/-- sll: left shift by register (R149). -/
def execSll (dest src1 amountReg : Reg) (s : State) : Result :=
  shrStep (.sll dest src1 amountReg) 1#1 dest src1 (3#2 ++ amountReg) s

end Sys2Proof.Machine
end

