-- ==== Sys2Proof/Machine/Dispatch.lean ====
section
/-! DEFINITION. One arm per instruction. -/

namespace Sys2Proof.Machine
open Sys2Proof

def exec (i : Instr) (s : State) : Host.Outcome State Fault Refusal :=
  match i with
  | .prefixOp sign dest src1 src2 => Sys2Proof.Machine.execPrefixOp sign dest src1 src2 s
  | .li sign dest src1 src2 => Sys2Proof.Machine.execLi sign dest src1 src2 s
  | .add sign dest src1 src2 => Sys2Proof.Machine.execAdd sign dest src1 src2 s
  | .subr sign dest src1 src2 => Sys2Proof.Machine.execSubr sign dest src1 src2 s
  | .and sign dest src1 src2 => Sys2Proof.Machine.execAnd sign dest src1 src2 s
  | .or sign dest src1 src2 => Sys2Proof.Machine.execOr sign dest src1 src2 s
  | .xor sign dest src1 src2 => Sys2Proof.Machine.execXor sign dest src1 src2 s
  | .srli dest src1 amount => Sys2Proof.Machine.execSrli dest src1 amount s
  | .srai dest src1 amount => Sys2Proof.Machine.execSrai dest src1 amount s
  | .srl dest src1 amountReg => Sys2Proof.Machine.execSrl dest src1 amountReg s
  | .sra dest src1 amountReg => Sys2Proof.Machine.execSra dest src1 amountReg s
  | .slli dest src1 amount => Sys2Proof.Machine.execSlli dest src1 amount s
  | .sll dest src1 amountReg => Sys2Proof.Machine.execSll dest src1 amountReg s
  | .sw sign data base src2 => Sys2Proof.Machine.execSw sign data base src2 s
  | .sb sign data base src2 => Sys2Proof.Machine.execSb sign data base src2 s
  | .lw sign dest base src2 => Sys2Proof.Machine.execLw sign dest base src2 s
  | .lb sign dest base src2 => Sys2Proof.Machine.execLb sign dest base src2 s
  | .lbu sign dest base src2 => Sys2Proof.Machine.execLbu sign dest base src2 s
  | .jalr dest src1 low => Sys2Proof.Machine.execJalr dest src1 low s
  | .jalrHigh dest src1 target => Sys2Proof.Machine.execJalrHigh dest src1 target s
  | .jal dest src1 src2 => Sys2Proof.Machine.execJal dest src1 src2 s
  | .jalBack dest src1 low => Sys2Proof.Machine.execJalBack dest src1 low s
  | .skipcBeq sign src1 src2 => Sys2Proof.Machine.execSkipcBeq sign src1 src2 s
  | .skipcBne sign src1 src2 => Sys2Proof.Machine.execSkipcBne sign src1 src2 s
  | .skipcReserved2 sign src1 src2 => Sys2Proof.Machine.execSkipcReserved2 sign src1 src2 s
  | .skipcReserved3 sign src1 src2 => Sys2Proof.Machine.execSkipcReserved3 sign src1 src2 s
  | .skipcBlt sign src1 src2 => Sys2Proof.Machine.execSkipcBlt sign src1 src2 s
  | .skipcBge sign src1 src2 => Sys2Proof.Machine.execSkipcBge sign src1 src2 s
  | .skipcBltu sign src1 src2 => Sys2Proof.Machine.execSkipcBltu sign src1 src2 s
  | .skipcBgeu sign src1 src2 => Sys2Proof.Machine.execSkipcBgeu sign src1 src2 s
  | .unassigned opcode sign dest src1 src2 => Sys2Proof.Machine.execUnassigned opcode sign dest src1 src2 s

end Sys2Proof.Machine
end

