-- ==== Sys2Proof/Machine/Fetch.lean ====
section
/-! DEFINITION. The fetch stage of a step: the word at the pc, its alignment fault, its decoding (spec/20_memory.md R41, R43,
spec/60_exceptions.md R223, R224), and the host's load of a word where the next step fetches (spec/70_reset_and_hazards.md R251). -/

namespace Sys2Proof.Machine
open Sys2Proof

/-- word = MemRead(pc, 2) (R41). -/
def State.fetchWord (s : State) : Word :=
  Memory.readWord s.mem s.pc

/-- The instruction at an even pc; `none` at an odd pc, before anything is decoded (R43, R223). -/
def State.fetch (s : State) : Option Instr :=
  if isOdd s.pc then none else some (decode s.cfg.opcodeMap s.fetchWord)

/-- The fetch at an odd pc raises MisalignedFetch; the record's word is `none` (R223). -/
def misalignedFetchStep (s : State) : Result :=
  .next (s.raise .misalignedFetch none)

/-- The state with an `nbits`-bit word (zero above) loaded at the pc, low byte first (R41, R251). -/
def State.loadWordAtPc (s : State) (nbits w : Nat) : State :=
  let v : Word := BitVec.ofNat 16 (w % 2 ^ nbits)
  s.loadBytes s.pc [v.extractLsb' 0 8, v.extractLsb' 8 8]

end Sys2Proof.Machine
end

