-- ==== Sys2Proof/Machine/Step.lean ====
section
/-! DEFINITION. One step (spec/00_scope.md R9). -/

namespace Sys2Proof.Machine
open Sys2Proof

/-- One fetch-decode-execute transition. A halted machine returns its record (R221); the fetch fault comes before decoding
(R224); every other step is the meaning of the instruction at the pc. -/
def step (s : State) : Host.Outcome State Fault Refusal :=
  match s.halted with
  | some r => haltedStep r
  | none =>
    match s.fetch with
    | none => misalignedFetchStep s
    | some i => exec i s

/-- `s` with the instruction word `w` of `nbits` bits stored where the next step fetches (the host's load, R251). -/
def State.withFetchWord (s : State) (nbits w : Nat) : State :=
  s.loadWordAtPc nbits w

end Sys2Proof.Machine
end

