-- ==== Sys2Proof/Machine/Encoder.lean ====
section
/-! DEFINITION. The Encoder (spec/30_encoding.md R62, R90 to R94): software outside the hardware block (R3), modelled as the
inverse the decoder must satisfy. Its textual syntax (R95) is not modelled. No machine step uses this file.

The cursor (R32) is in the arguments: `pendingHere` says that the word emitted before this place is a Prefix, and `place` is
the address of the next word (log entry 17). -/

namespace Sys2Proof.Machine
open Sys2Proof

/-- The Encoder's errors, "a programmer-time error, never a runtime machine fault" (R62, R94). -/
inductive EncodeError where
  /-- A field or an immediate out of its range (R62, R91), or an odd Jal target (R93). -/
  | encodingRange
  /-- A Prefix asked for while an extension is pending (R94). -/
  | prefixAfterPrefix
deriving DecidableEq, Repr

/-- The emitted words, in order, or an error. -/
abbrev Emitted := Except EncodeError (List Word)

/-- R62's `encode(opcode, sign, dest, src1, src2)` on numbers: never truncated. -/
def encodeRaw (m : OpcodeMap) (o : Opcode) (sign dest src1 src2 : Nat) : Except EncodeError Word :=
  if sign < 2 ∧ dest < 8 ∧ src1 < 8 ∧ src2 < 32 then
    .ok (pack ⟨m.value o, BitVec.ofNat 1 sign, BitVec.ofNat 3 dest, BitVec.ofNat 3 src1, BitVec.ofNat 5 src2⟩)
  else .error .encodingRange

/-- The word of a raw encoding call. A Prefix while an extension is pending is reported "immediately at the encoding call"
(R94).

DESIGN CHOICE (log entry 21), safe: where the same call also has a field out of its range (R62), PrefixAfterPrefix is the error
reported; the spec gives the two errors no order. -/
def emitRaw (m : OpcodeMap) (pendingHere : Bool) (o : Opcode) (sign dest src1 src2 : Nat) : Emitted :=
  if o = .prefixOp ∧ pendingHere = true then .error .prefixAfterPrefix
  else (encodeRaw m o sign dest src1 src2).map (fun w => [w])

/-- `prefix d, a, b`: a raw Prefix with sign = 0 (R94, R95). -/
def emitPrefix (m : OpcodeMap) (pendingHere : Bool) (dest src1 src2 : Nat) : Emitted :=
  emitRaw m pendingHere .prefixOp 0 dest src1 src2

/-- The Prefix word that supplies the high bits of `u` (R92). -/
def prefixWord (m : OpcodeMap) (u : Word) : Word :=
  pack ⟨m.value .prefixOp, 0#1, u.extractLsb' 13 3, u.extractLsb' 10 3, u.extractLsb' 5 5⟩

/-- The caller's immediate is a 16-bit signed value (R91, decision D25). -/
def inImmRange (v : Int) : Bool :=
  decide (-32768 ≤ v ∧ v ≤ 32767)

/-- The instruction word alone when the immediate is native, otherwise the Prefix for `u` and the word (R91, R92), which is an
error while an extension is pending: the Encoder never emits two Prefix words in a row (R94). -/
def emitWithPrefix (m : OpcodeMap) (pendingHere native : Bool) (u : Word) (w : Word) : Emitted :=
  if native then .ok [w]
  else if pendingHere then .error .prefixAfterPrefix
  else .ok [prefixWord m u, w]

/-- Li's native unprefixed range (R91). -/
def nativeLi (v : Int) : Bool :=
  decide (-256 ≤ v ∧ v ≤ 255)

/-- The native unprefixed range of a 6-bit immediate, without the values the register-select form takes (R91). -/
def native6 (selectAllowed : Bool) (v : Int) : Bool :=
  decide ((if selectAllowed then -24 else -32) ≤ v ∧ v ≤ 31)

/-- The opcodes with a 6-bit operand (R71, R72). The Encoder's calls for that operand take one of these, so that no other opcode, a
Prefix among them, can be asked of them. -/
inductive Imm6Op where
  | add | subr | and | or | xor | skipc | sw | sb | lw | lb | lbu
deriving DecidableEq, Repr

/-- The opcode's name in R64. -/
def Imm6Op.opcode : Imm6Op → Opcode
  | .add => .add
  | .subr => .subr
  | .and => .and
  | .or => .or
  | .xor => .xor
  | .skipc => .skipc
  | .sw => .sw
  | .sb => .sb
  | .lw => .lw
  | .lb => .lb
  | .lbu => .lbu

/-- Whether the 6-bit operand of an opcode has the register-select form (R105, R160, R161). -/
def selectAllowed (p : Params) : Imm6Op → Bool
  | .add | .subr | .and | .or | .xor | .skipc => true
  | .sw | .sb => p.storeOffsetAlias
  | .lw | .lb | .lbu => p.loadOffsetAlias

/-- `li rd, v` (R70, R91, R92). DESIGN CHOICE (log entry 21), safe: a value out of range is EncodingRangeError also while an
extension is pending; `emitImm6` and `emitJal` take the same order. -/
def emitLi (p : Params) (pendingHere : Bool) (rd : Reg) (v : Int) : Emitted :=
  let u : Word := BitVec.ofInt 16 v
  if inImmRange v then
    emitWithPrefix p.opcodeMap pendingHere (nativeLi v) u
      (pack ⟨p.opcodeMap.value .li, u.extractLsb' 15 1, rd, u.extractLsb' 5 3, u.extractLsb' 0 5⟩)
  else .error .encodingRange

/-- An instruction of an opcode with a 6-bit immediate operand `v`: the ALU family, Skipc, the stores and the loads; `dest` is
the dest field (a register, or Skipc's condition code) and `src1` the src1 field (R71, R72, R91, R92). -/
def emitImm6 (p : Params) (pendingHere : Bool) (o : Imm6Op) (dest src1 : BitVec 3) (v : Int) : Emitted :=
  let u : Word := BitVec.ofInt 16 v
  if inImmRange v then
    emitWithPrefix p.opcodeMap pendingHere (native6 (selectAllowed p o) v) u
      (pack ⟨p.opcodeMap.value o.opcode, u.extractLsb' 15 1, dest, src1, u.extractLsb' 0 5⟩)
  else .error .encodingRange

/-- The register-select form of such an instruction: sign = 1, src2 = the register (R95, R105).

DESIGN CHOICE (log entry 20), safe: the spec does not say what the Encoder answers where the form does not exist, which is for a
store under STORE_OFFSET_ALIAS = false, for a load under LOAD_OFFSET_ALIAS = false, and right after a Prefix. The word is emitted
there too, with no error, and the machine reads its {sign, src2} as an immediate. -/
def emitSelect (p : Params) (o : Imm6Op) (dest src1 : BitVec 3) (r : Reg) : Word :=
  pack ⟨p.opcodeMap.value o.opcode, 1#1, dest, src1, 0#2 ++ r⟩

/-- `jal rX`: sign = 1, src2 = X (R95, R182). -/
def emitJalReg (p : Params) (r : Reg) : Word :=
  pack ⟨p.opcodeMap.value .jal, 1#1, 0#3, 0#3, 0#2 ++ r⟩

/-- Jal's native unprefixed word offsets: 0..2047, and the w in -2048..-1 with w[4:0] ≥ 24 (R91). -/
def nativeJal (w : Int) : Bool :=
  decide (0 ≤ w ∧ w ≤ 2047) ||
    (decide (-2048 ≤ w ∧ w < 0) && decide (24 ≤ ((BitVec.ofInt 16 w : Word).extractLsb' 0 5).toNat))

/-- The word offset of a target T for a Jal at address A: s16(T - B) / 2, exact for an even T and an even A (R93). At an odd A it is
rounded down (DESIGN CHOICE, log entry 22, safe). -/
def jalOffset (b : JalRelBase) (a t : Word) : Int :=
  (t - relBase b a).toInt / 2

/-- `jal T` assembled at address `place` (R91 to R93): an odd T is an error. The Jal word alone stands at `place`; after a Prefix
it stands at `place + 2`, which is then R93's A, and has sign = 0 (R92).

DESIGN CHOICE (log entry 18), safe: the spec does not say from which address the offset must be native. A Prefix is emitted
exactly when the offset from `place` is not native, also where the offset from `place + 2` would be.

DESIGN CHOICE (log entry 22), safe: the spec does not say what the Encoder answers at an odd `place`. It is no error here: a word is
emitted with the offset rounded down, which does not reach T. -/
def emitJal (p : Params) (pendingHere : Bool) (place t : Word) : Emitted :=
  if t.extractLsb' 0 1 = 1#1 then .error .encodingRange
  else
    let w := jalOffset p.jalRelBase place t
    let u : Word := BitVec.ofInt 16 w
    let u' : Word := BitVec.ofInt 16 (jalOffset p.jalRelBase (place + 2) t)
    if nativeJal w then
      .ok [pack ⟨p.opcodeMap.value .jal, u.extractLsb' 11 1, u.extractLsb' 8 3, u.extractLsb' 5 3, u.extractLsb' 0 5⟩]
    else
      emitWithPrefix p.opcodeMap pendingHere false u'
        (pack ⟨p.opcodeMap.value .jal, 0#1, u'.extractLsb' 8 3, u'.extractLsb' 5 3, u'.extractLsb' 0 5⟩)

/-- The Shr word of variant `v` among candidates (sign, src2): the first whose selector SHR_MAP maps to `v`.

DESIGN CHOICE (log entry 19), safe: the spec gives the selectors of the default SHR_MAP alone (R141), which this finds under
the default. Under another map the first selector in R141's order stands, and an operation no candidate selects is an
EncodingRangeError. -/
def emitShift (p : Params) (v : ShiftVariant) (rd rs1 : Reg) (candidates : List (BitVec 1 × BitVec 5)) : Emitted :=
  match candidates.find? (fun c => decide (p.shrMap.entry c.1 (c.2.extractLsb' 3 2) = .variant v)) with
  | some c => .ok [pack ⟨p.opcodeMap.value .shr, c.1, rd, rs1, c.2⟩]
  | none => .error .encodingRange

/-- The candidates whose src2[3:0] is a right shift's amount, in R141's order. -/
def amount4Candidates (n : BitVec 4) : List (BitVec 1 × BitVec 5) :=
  [(0#1, 0#1 ++ n), (0#1, 1#1 ++ n), (1#1, 0#1 ++ n), (1#1, 1#1 ++ n)]

/-- The candidates whose src2[2:0] is a left shift's amount or the amount register, in R141's order. -/
def low3Candidates (n : BitVec 3) : List (BitVec 1 × BitVec 5) :=
  [(0#1, 0#2 ++ n), (0#1, 1#2 ++ n), (0#1, 2#2 ++ n), (0#1, 3#2 ++ n),
    (1#1, 0#2 ++ n), (1#1, 1#2 ++ n), (1#1, 2#2 ++ n), (1#1, 3#2 ++ n)]

/-- The immediate shifts: an amount of 0..15 to the right or 0..7 to the left, never prefixed (R91, R141). A
variant that takes a register is an EncodingRangeError (DESIGN CHOICE, log entry 21, safe). -/
def emitShiftImm (p : Params) (v : ShiftVariant) (rd rs1 : Reg) (n : Nat) : Emitted :=
  match v with
  | .srli => if n < 16 then emitShift p .srli rd rs1 (amount4Candidates (BitVec.ofNat 4 n)) else .error .encodingRange
  | .srai => if n < 16 then emitShift p .srai rd rs1 (amount4Candidates (BitVec.ofNat 4 n)) else .error .encodingRange
  | .slli => if n < 8 then emitShift p .slli rd rs1 (low3Candidates (BitVec.ofNat 3 n)) else .error .encodingRange
  | .srl => .error .encodingRange
  | .sra => .error .encodingRange
  | .sll => .error .encodingRange

/-- The register shifts, never prefixed (R95, R141). A variant that takes an immediate is an EncodingRangeError (DESIGN CHOICE, log
entry 21, safe). -/
def emitShiftReg (p : Params) (v : ShiftVariant) (rd rs1 r : Reg) : Emitted :=
  match v with
  | .srl => emitShift p .srl rd rs1 (low3Candidates r)
  | .sra => emitShift p .sra rd rs1 (low3Candidates r)
  | .sll => emitShift p .sll rd rs1 (low3Candidates r)
  | .srli => .error .encodingRange
  | .srai => .error .encodingRange
  | .slli => .error .encodingRange

/-- The effect of executing words one after another, whatever the pc: R90's "executing the emitted words". -/
def execWords : List Word → State → Result
  | [], s => .next s
  | w :: rest, s =>
    match exec (decode s.cfg.opcodeMap w) s with
    | .next t => execWords rest t
    | .fault r => .fault r
    | .refused r => .refused r

end Sys2Proof.Machine
end

