-- ==== Sys2Proof/Safety.lean ====
section
/-! DEFINITION. What a legal state and a safe run are, and the vocabulary the statements use: the spec's own formulas
(namespace `Rule`), written from its rules and not from the meanings, and what an instruction leaves unchanged. -/

namespace Sys2Proof.Machine
open Sys2Proof

/-- The two kinds of extension state R26 calls reachable: the identity pair, or (0x801F, b) with b[4:0] = 0. -/
def Ext.legal (e : Ext) : Prop :=
  e = ⟨0xFFFF, 0x0000⟩ ∨ (e.mask = 0x801F ∧ e.bits.toNat % 32 = 0)

/-- The invariant of every reachable state: canonical memory, a legal extension state (R26), an injective OPCODE_MAP (R5). -/
structure State.Legal (s : State) : Prop where
  mem : Memory.wf s.mem = true
  ext : s.ext.legal
  opcodeMap : s.cfg.opcodeMap.wf = true

/-- A state that some run of steps from `s₀` reaches (R253); the host changes nothing between steps (R251). -/
inductive Reachable (s₀ : State) : State → Prop where
  | start : Reachable s₀ s₀
  | step {s t : State} : Reachable s₀ s → Machine.step s = .next t → Reachable s₀ t

/-- A safe run from `s₀`: no state it reaches is halted (R253). -/
def SafeRun (s₀ : State) : Prop :=
  ∀ s, Reachable s₀ s → s.halted = none

end Sys2Proof.Machine

namespace Sys2Proof.Rule
open Sys2Proof Sys2Proof.Machine

/-- combine(nom) (R102). -/
def combine (s : State) (nom : Word) : Word :=
  (nom &&& s.ext.mask) ||| s.ext.bits

/-- opB of R105, the register-select form allowed or not (R160, R161). -/
def operand (s : State) (allowed : Bool) (sign : BitVec 1) (src2 : BitVec 5) : Word :=
  if allowed = true ∧ s.ext = ⟨0xFFFF, 0x0000⟩ ∧ sign = 1#1 ∧ src2.toNat < 8 then s.reg (src2.extractLsb' 0 3)
  else combine s ((sign ++ src2).signExtend 16)

/-- The word with the given fields (R60, R62). -/
def word (opcode : BitVec 4) (sign dest src1 src2 : Nat) : Nat :=
  opcode.toNat * 4096 + sign * 2048 + dest * 256 + src1 * 32 + src2

/-- x >>u n, x >>s n and x << n (R8), each from the number it reads. -/
def shift (x : Word) (n : Nat) : ShiftVariant → Word
  | .srli => BitVec.ofNat 16 (x.toNat / 2 ^ n)
  | .srai => BitVec.ofInt 16 (x.toInt / 2 ^ n)
  | .srl => BitVec.ofNat 16 (x.toNat / 2 ^ n)
  | .sra => BitVec.ofInt 16 (x.toInt / 2 ^ n)
  | .slli => BitVec.ofNat 16 (x.toNat * 2 ^ n)
  | .sll => BitVec.ofNat 16 (x.toNat * 2 ^ n)

/-- The shift amount of a variant (R141), modulo 16 (R143). -/
def amount (s : State) (src2 : BitVec 5) : ShiftVariant → Nat
  | .srli => src2.toNat % 16
  | .srai => src2.toNat % 16
  | .srl => (s.reg (src2.extractLsb' 0 3)).toNat % 16
  | .sra => (s.reg (src2.extractLsb' 0 3)).toNat % 16
  | .slli => src2.toNat % 8
  | .sll => (s.reg (src2.extractLsb' 0 3)).toNat % 16

/-- What `raise F(pc, word)` leaves (R221). -/
def raised (s : State) (kind : FaultKind) (w : Option Word) : State :=
  { s with halted := some ⟨kind, s.pc, w⟩ }

/-- Register `d` holds `v` and every other register is unchanged. -/
def WritesReg (s t : State) (d : Reg) (v : Word) : Prop :=
  t.reg d = v ∧ ∀ r, r ≠ d → t.reg r = s.reg r

/-- No register is written. -/
def KeepsRegs (s t : State) : Prop :=
  ∀ r, t.reg r = s.reg r

/-- Every byte of memory is unchanged. -/
def KeepsMem (s t : State) : Prop :=
  ∀ a : Word, Memory.readByte t.mem a = Memory.readByte s.mem a

/-- The rest of a completed step that is no Prefix: the identity extension (R104), the next pc, no fault and no parameter written. -/
def Retires (s t : State) (pc : Word) : Prop :=
  t.ext = ⟨0xFFFF, 0x0000⟩ ∧ t.pc = pc ∧ t.halted = s.halted ∧ t.cfg = s.cfg

/-- The one register an instruction may write (R22). -/
def destOf : Instr → Option Reg
  | .li _ d _ _ => some d
  | .add _ d _ _ => some d
  | .subr _ d _ _ => some d
  | .and _ d _ _ => some d
  | .or _ d _ _ => some d
  | .xor _ d _ _ => some d
  | .srli d _ _ => some d
  | .srai d _ _ => some d
  | .srl d _ _ => some d
  | .sra d _ _ => some d
  | .slli d _ _ => some d
  | .sll d _ _ => some d
  | .lw _ d _ _ => some d
  | .lb _ d _ _ => some d
  | .lbu _ d _ _ => some d
  | .jalr _ _ _ => some 7#3
  | .jalrHigh _ _ _ => some 7#3
  | .jal _ _ _ => some 7#3
  | .jalBack _ _ _ => some 7#3
  | .prefixOp _ _ _ _ => none
  | .sw _ _ _ _ => none
  | .sb _ _ _ _ => none
  | .skipcBeq _ _ _ => none
  | .skipcBne _ _ _ => none
  | .skipcReserved2 _ _ _ => none
  | .skipcReserved3 _ _ _ => none
  | .skipcBlt _ _ _ => none
  | .skipcBge _ _ _ => none
  | .skipcBltu _ _ _ => none
  | .skipcBgeu _ _ _ => none
  | .unassigned _ _ _ _ _ => none

/-- The bytes an instruction stores to at a state: address and number of bytes (R162, R163); `none` for all others (R44). -/
def storedBytes (s : State) : Instr → Option (Word × Nat)
  | .sw sign _ base src2 => some (s.reg base + operand s s.cfg.storeOffsetAlias sign src2, 2)
  | .sb sign _ base src2 => some (s.reg base + operand s s.cfg.storeOffsetAlias sign src2, 1)
  | _ => none

/-- B, the base of a relative Jal (R183). -/
def base (s : State) : Word :=
  if s.cfg.jalRelBase = .a then s.pc else s.pc + 2

/-- The next pc of a completed step that runs `i`, by R190's table, with t of R184 and B of R183. -/
def nextPcOf (s : State) : Instr → Word
  | .jalr _ _ low => s.reg (low.extractLsb' 0 3)
  | .jalrHigh _ _ target => s.reg target
  | .jal d a b =>
    base s + 2 * combine s ((0#1 ++ d ++ a ++ b).signExtend 16)
  | .jalBack d a low =>
    base s + 2 * combine s ((1#1 ++ d ++ a ++ (3#2 ++ low)).signExtend 16)
  | .skipcBeq sign a b => if s.reg a = operand s true sign b then s.pc + 4 else s.pc + 2
  | .skipcBne sign a b => if s.reg a ≠ operand s true sign b then s.pc + 4 else s.pc + 2
  | .skipcBlt sign a b => if (s.reg a).toInt < (operand s true sign b).toInt then s.pc + 4 else s.pc + 2
  | .skipcBge sign a b => if (s.reg a).toInt ≥ (operand s true sign b).toInt then s.pc + 4 else s.pc + 2
  | .skipcBltu sign a b => if (s.reg a).toNat < (operand s true sign b).toNat then s.pc + 4 else s.pc + 2
  | .skipcBgeu sign a b => if (s.reg a).toNat ≥ (operand s true sign b).toNat then s.pc + 4 else s.pc + 2
  | _ => s.pc + 2

/-- The word at the pc, from the two bytes (R41). -/
def wordAtPc (s : State) : Word :=
  Memory.readByte s.mem (s.pc + 1) ++ Memory.readByte s.mem s.pc

/-- The word at the pc has the opcode name `o` (R60, R64). -/
def opcodeIs (s : State) (o : Opcode) : Prop :=
  s.cfg.opcodeMap.value o = (wordAtPc s).extractLsb' 12 4

/-- The word is a Prefix (R64). -/
def isPrefix (m : OpcodeMap) (w : Word) : Prop :=
  w.extractLsb' 12 4 = m.prefixOp

/-- No Prefix word follows a Prefix, the one before the first word (if `pendingHere`) included (R94). -/
def noTwoPrefixes (m : OpcodeMap) : Prop → List Word → Prop
  | _, [] => True
  | pendingHere, w :: rest => ¬ (pendingHere ∧ isPrefix m w) ∧ noTwoPrefixes m (isPrefix m w) rest

/-- Whether the 6-bit operand of an opcode has the register-select form (R105, R160, R161). -/
def selects (s : State) : Imm6Op → Bool
  | .add => true
  | .subr => true
  | .and => true
  | .or => true
  | .xor => true
  | .skipc => true
  | .sw => s.cfg.storeOffsetAlias
  | .sb => s.cfg.storeOffsetAlias
  | .lw => s.cfg.loadOffsetAlias
  | .lb => s.cfg.loadOffsetAlias
  | .lbu => s.cfg.loadOffsetAlias

/-- R91's native ranges of the 6-bit immediates: -24..31 with the register-select form, -32..31 without it. -/
def native6 (allowed : Bool) (v : Int) : Prop :=
  (if allowed = true then -24 else -32) ≤ v ∧ v ≤ 31

/-- The word offset of a target T for a Jal at address A: s16(T - B) / 2, with B of R183 (R93). -/
def jalOffset (b : JalRelBase) (a t : Word) : Int :=
  (t - (if b = .a then a else a + 2)).toInt / 2

/-- R91's native word offsets of a relative Jal: 0..2047, and the w in -2048..-1 with w[4:0] ≥ 24. -/
def nativeJal (w : Int) : Prop :=
  (0 ≤ w ∧ w ≤ 2047) ∨ (-2048 ≤ w ∧ w ≤ -1 ∧ 24 ≤ w % 32)

/-- The cause of each fault (R222), by the fields of the word at the pc, in the priority of R224. -/
def cause (s : State) : FaultKind → Prop
  | .misalignedFetch => s.pc.toNat % 2 = 1
  | .illegalOpcode => s.pc.toNat % 2 = 0 ∧ ∀ o, ¬ opcodeIs s o
  | .prefixAfterPrefix => s.pc.toNat % 2 = 0 ∧ opcodeIs s .prefixOp ∧ s.ext ≠ ⟨0xFFFF, 0x0000⟩
  | .misalignedLoad =>
    s.pc.toNat % 2 = 0 ∧ opcodeIs s .lw ∧
      (s.reg ((wordAtPc s).extractLsb' 5 3) +
        operand s s.cfg.loadOffsetAlias ((wordAtPc s).extractLsb' 11 1) ((wordAtPc s).extractLsb' 0 5)).toNat % 2 = 1
  | .misalignedStore =>
    s.pc.toNat % 2 = 0 ∧ opcodeIs s .sw ∧
      (s.reg ((wordAtPc s).extractLsb' 5 3) +
        operand s s.cfg.storeOffsetAlias ((wordAtPc s).extractLsb' 11 1) ((wordAtPc s).extractLsb' 0 5)).toNat % 2 = 1
  | .reservedCondition =>
    s.pc.toNat % 2 = 0 ∧ opcodeIs s .skipc ∧ s.cfg.reservedCond = .fault ∧
      ((wordAtPc s).extractLsb' 8 3 = 2#3 ∨ (wordAtPc s).extractLsb' 8 3 = 3#3)
  | .reservedShift =>
    s.pc.toNat % 2 = 0 ∧ opcodeIs s .shr ∧
      s.cfg.shrMap.entry ((wordAtPc s).extractLsb' 11 1) ((wordAtPc s).extractLsb' 3 2) = .reserved

end Sys2Proof.Rule
end

