-- ==== Sys2Proof/Certificates/Slice0/Obligations.lean ====
section
/-! DEFINITION. The statements for the provers, from the numbered rules of spec/. `Rule.…` (Sys2Proof/Safety.lean) is the
spec's own formula, written apart from the meanings. -/

open Sys2Proof Sys2Proof.Machine

/- Encoding -/

/-- R61: the decoder's fields are the word's bits at the positions of R60. -/
def Obligations.UnpackTakesTheFieldBits : Prop :=
  ∀ w : Word,
    (unpack w).opcode.toNat = w.toNat / 4096 ∧ (unpack w).sign.toNat = w.toNat / 2048 % 2 ∧
      (unpack w).dest.toNat = w.toNat / 256 % 8 ∧ (unpack w).src1.toNat = w.toNat / 32 % 8 ∧
      (unpack w).src2.toNat = w.toNat % 32

/-- R62: the encoder lays out in-range fields, the decoder reads them back, and an out-of-range field is an error. -/
def Obligations.EncodeRawInvertsUnpack : Prop :=
  ∀ (m : OpcodeMap) (o : Opcode) (sign dest src1 src2 : Nat),
    (sign < 2 ∧ dest < 8 ∧ src1 < 8 ∧ src2 < 32 →
      ∃ w, encodeRaw m o sign dest src1 src2 = .ok w ∧ w.toNat = Rule.word (m.value o) sign dest src1 src2 ∧
        (unpack w).opcode = m.value o ∧ (unpack w).sign.toNat = sign ∧ (unpack w).dest.toNat = dest ∧
        (unpack w).src1.toNat = src1 ∧ (unpack w).src2.toNat = src2) ∧
    (¬ (sign < 2 ∧ dest < 8 ∧ src1 < 8 ∧ src2 < 32) →
      encodeRaw m o sign dest src1 src2 = .error .encodingRange)

/-- Every well-formed instruction, at every operand value, decodes from its own word, under every injective OPCODE_MAP. -/
def Obligations.DecodeEncodeAgree : Prop :=
  ∀ (m : OpcodeMap) (i : Instr), m.wf = true → i.wf m = true → decode m (encode m i) = i

/-- Every word is the word of the instruction it decodes to, under every OPCODE_MAP: decoding drops no bit. -/
def Obligations.EncodeDecodeAgree : Prop :=
  ∀ (m : OpcodeMap) (w : Word), encode m (decode m w) = w

/-- R66: a word decodes to an unassigned instruction exactly when no name has its opcode value; under the default map those are
0xF000..0xFFFF; and its meaning, and the step that fetches such a word, raise IllegalOpcode with the pc and the word and change
nothing else. -/
def Obligations.UnassignedOpcodeFaults : Prop :=
  (∀ (m : OpcodeMap) (w : Word),
    (∀ o, m.value o ≠ w.extractLsb' 12 4) ↔ ∃ op sign dest src1 src2, decode m w = .unassigned op sign dest src1 src2) ∧
  (∀ w : Word, (∃ op sign dest src1 src2, decode OpcodeMap.default w = .unassigned op sign dest src1 src2) ↔
    0xF000 ≤ w.toNat) ∧
  (∀ op sign dest src1 src2 (s : State),
    exec (.unassigned op sign dest src1 src2) s =
      .next (Rule.raised s .illegalOpcode (some (op ++ sign ++ dest ++ src1 ++ src2)))) ∧
  (∀ s : State, s.halted = none → s.pc.toNat % 2 = 0 → (∀ o, ¬ Rule.opcodeIs s o) →
    step s = .next (Rule.raised s .illegalOpcode (some (Rule.wordAtPc s))))

/-- Words written out from the spec's encodings, one or more of each family, decode to their instructions (default
OPCODE_MAP). -/
def Obligations.DecodesWordsOfTheSpec : Prop :=
  decode OpcodeMap.default 0x001F = .prefixOp 0 0 0 31 ∧ decode OpcodeMap.default 0x16E8 = .li 0 6 7 8 ∧
  decode OpcodeMap.default 0x2FA6 = .add 1 7 5 6 ∧ decode OpcodeMap.default 0x7224 = .srli 2 1 4 ∧
  decode OpcodeMap.default 0x7234 = .srai 2 1 4 ∧ decode OpcodeMap.default 0x7A2B = .sra 2 1 3 ∧
  decode OpcodeMap.default 0x8324 = .sw 0 3 1 4 ∧ decode OpcodeMap.default 0xB224 = .lb 0 2 1 4 ∧
  decode OpcodeMap.default 0xD803 = .jalr 0 0 3 ∧ decode OpcodeMap.default 0xD813 = .jalrHigh 0 0 3 ∧
  decode OpcodeMap.default 0xD007 = .jal 0 0 7 ∧ decode OpcodeMap.default 0xDFFF = .jalBack 7 7 7 ∧
  decode OpcodeMap.default 0xE822 = .skipcBeq 1 1 2 ∧ decode OpcodeMap.default 0xE220 = .skipcReserved2 0 1 0 ∧
  decode OpcodeMap.default 0xFFFF = .unassigned 15 1 7 7 31

/-- The worked encodings under the default OPCODE_MAP (the table of R97, which the spec marks as derived). -/
def Obligations.WorkedEncodings : Prop :=
  emitSelect Params.default .add 7 5 6 = 0x2FA6 ∧ emitLi Params.default false 6 (-1) = .ok [0x1EFF] ∧
  emitLi Params.default false 6 1000 = .ok [0x001F, 0x16E8] ∧ emitLi Params.default false 6 (-32768) = .ok [0x0400, 0x1E00] ∧
  emitLi Params.default false 6 32767 = .ok [0x03FF, 0x16FF] ∧ emitImm6 Params.default false .add 4 2 (-24) = .ok [0x2C48] ∧
  emitImm6 Params.default false .add 4 2 (-30) = .ok [0x07FF, 0x2C42] ∧
  emitImm6 Params.default false .add 4 2 100 = .ok [0x0003, 0x2444] ∧ emitSelect Params.default .skipc 0 1 2 = 0xE822 ∧
  (∀ a : Word, a.toNat % 2 = 0 → emitJal Params.default false a a = .ok [0xD000]) ∧ emitJalReg Params.default 3 = 0xD803

/- The step -/

/-- When the two bytes at an even pc decode to a well-formed instruction, a step of a machine that is not halted is that
instruction's meaning, and nothing else. -/
def Obligations.StepRunsTheDecodedInstruction : Prop :=
  ∀ (s : State) (i : Instr), s.halted = none → s.pc.toNat % 2 = 0 → i.wf s.cfg.opcodeMap = true →
    decodeBytes s.cfg.opcodeMap [Memory.readByte s.mem s.pc, Memory.readByte s.mem (s.pc + 1)] = .ok (i, []) →
    step s = exec i s

/-- R43: a fetch at an odd pc raises MisalignedFetch, with no word, and the step does nothing else. -/
def Obligations.OddPcFaultsAtFetch : Prop :=
  ∀ s : State, s.halted = none → s.pc.toNat % 2 = 1 → step s = .next (Rule.raised s .misalignedFetch none)

/-- R221: a faulting step changes nothing but `halted`, records the pc and the fetched word (no word at an odd pc), and every
later step returns that record. -/
def Obligations.FaultIsPrecise : Prop :=
  (∀ (s t : State) (r : FaultRecord), step s = .next t → t.halted = some r →
    t = { s with halted := some r } ∧ r.pc = s.pc ∧
      r.word = if s.pc.toNat % 2 = 1 then none else some (Rule.wordAtPc s)) ∧
  (∀ (s : State) (r : FaultRecord), s.halted = some r → step s = .fault (.halted r))

/-- R222, R224: a step of a machine that is not halted raises a fault exactly when that fault's cause holds, records pc and
word, and the codes are 1 to 7. -/
def Obligations.FaultsHaveExactlyTheirCauses : Prop :=
  (∀ (s : State) (k : FaultKind), s.halted = none → s.cfg.opcodeMap.wf = true →
    ((∃ t r, step s = .next t ∧ t.halted = some r ∧ r.kind = k) ↔ Rule.cause s k)) ∧
  (∀ (s t : State) (r : FaultRecord), step s = .next t → t.halted = some r →
    r.pc = s.pc ∧ r.word = if r.kind = .misalignedFetch then none else some (Rule.wordAtPc s)) ∧
  (FaultKind.illegalOpcode.code = 1 ∧ FaultKind.misalignedFetch.code = 2 ∧ FaultKind.misalignedLoad.code = 3 ∧
    FaultKind.misalignedStore.code = 4 ∧ FaultKind.prefixAfterPrefix.code = 5 ∧ FaultKind.reservedCondition.code = 6 ∧
    FaultKind.reservedShift.code = 7)

/-- A machine that is not halted always takes a step: no instruction is refused, and a fault is a next state with `halted`
written (the model's form of R221, log entry 9). -/
def Obligations.RunningMachineAnswersANextState : Prop :=
  ∀ s : State, s.halted = none → ∃ t, step s = .next t

/-- Every step keeps the invariant: canonical memory (the model's form of it, log entry 13), an extension state of the two
kinds R26 derives, an injective OPCODE_MAP (R5; held in State, log entry 1). -/
def Obligations.StepKeepsLegal : Prop :=
  ∀ s t : State, s.Legal → step s = .next t → t.Legal

/-- The invariant holds at reset (its clauses are the model's choices of log entries 1 and 13 and what R26 derives). -/
def Obligations.ResetIsLegal : Prop :=
  State.reset.Legal

/-- R33: the reset values. -/
def Obligations.ResetValues : Prop :=
  (∀ r, State.reset.reg r = 0x0000) ∧ State.reset.pc = 0x0000 ∧ State.reset.ext.mask = 0xFFFF ∧
    State.reset.ext.bits = 0x0000 ∧ (∀ a : Word, Memory.readByte State.reset.mem a = 0x00) ∧ State.reset.halted = none

/-- The parameters of a reset machine are the defaults of R5's table, with SHR_MAP as R141 gives it, and no step changes them
(the model's choice: they stand in State, log entry 1). -/
def Obligations.ParametersAreConstant : Prop :=
  (∀ s t : State, step s = .next t → t.cfg = s.cfg) ∧
  State.reset.cfg.opcodeMap = ⟨0x0, 0x1, 0x2, 0x3, 0x4, 0x5, 0x6, 0x7, 0x8, 0x9, 0xA, 0xB, 0xC, 0xD, 0xE⟩ ∧
  State.reset.cfg.subrOrder = .rs1MinusOperand ∧
  (∀ (sign : BitVec 1) (sel : BitVec 2),
    State.reset.cfg.shrMap.entry sign sel =
      .variant (if sign = 0#1 then (if sel.toNat < 2 then .srli else .srai)
        else if sel.toNat = 0 then .srl else if sel.toNat = 1 then .sra else if sel.toNat = 2 then .slli else .sll)) ∧
  State.reset.cfg.storeOffsetAlias = true ∧ State.reset.cfg.loadOffsetAlias = false ∧
  State.reset.cfg.jalRelBase = .a ∧ State.reset.cfg.reservedCond = .fault

/-- Whatever image the host loads, every state the run reaches has an extension state of the two kinds R26 derives. -/
def Obligations.ReachableExtensionStates : Prop :=
  ∀ (image : List Byte) (s : State), Reachable (State.reset.loadBytes 0 image) s → s.ext.legal

/-- R104: a completing step that is not a Prefix leaves the identity pair; a faulting step leaves the extension state as it
was. -/
def Obligations.ExtensionResetsAfterEveryOtherStep : Prop :=
  ∀ s t : State, step s = .next t →
    (t.halted = none → ¬ (∃ sign dest src1 src2,
        decode s.cfg.opcodeMap (Rule.wordAtPc s) = .prefixOp sign dest src1 src2) → t.ext = ⟨0xFFFF, 0x0000⟩) ∧
    (t.halted ≠ none → t.ext = s.ext)

/-- R22, which the spec marks as derived: an instruction changes no register but its one destination: x[dest] for its first
group, x[7] for Jal, none for Prefix, Sw, Sb and Skipc, and none when it faults. -/
def Obligations.OnlyTheDestinationRegisterChanges : Prop :=
  ∀ (i : Instr) (s t : State) (r : Reg), exec i s = .next t → Rule.destOf i ≠ some r ∨ t.halted ≠ s.halted →
    t.reg r = s.reg r

/-- Every byte of memory outside the bytes an instruction stores to is unchanged: two bytes for Sw, one for Sb, at the address
of R161, and none for every other instruction. -/
def Obligations.OnlyTheStoredBytesChange : Prop :=
  ∀ (i : Instr) (s t : State) (a : Word), Memory.wf s.mem = true → exec i s = .next t →
    (∀ b n, Rule.storedBytes s i = some (b, n) → a ≠ b ∧ (n = 2 → a ≠ b + 1)) →
    Memory.readByte t.mem a = Memory.readByte s.mem a

/-- R190: the next pc of every step: the table's value when it completes, unchanged when it faults. -/
def Obligations.PcUpdateLogic : Prop :=
  ∀ s t : State, step s = .next t →
    (t.halted = none → t.pc = Rule.nextPcOf s (decode s.cfg.opcodeMap (Rule.wordAtPc s))) ∧
    (t.halted ≠ none → t.pc = s.pc)

/-- R193: from an even pc only a register-indirect Jal through an odd register gives an odd pc; that Jal completes, and the next
step raises MisalignedFetch at the odd pc. -/
def Obligations.OnlyAnIndirectJalMakesThePcOdd : Prop :=
  (∀ s t : State, step s = .next t → s.pc.toNat % 2 = 0 → t.pc.toNat % 2 = 1 →
    (∃ dest src1 low, decode s.cfg.opcodeMap (Rule.wordAtPc s) = .jalr dest src1 low ∧ t.pc = s.reg (low.extractLsb' 0 3)) ∨
    (∃ dest src1 target, decode s.cfg.opcodeMap (Rule.wordAtPc s) = .jalrHigh dest src1 target ∧ t.pc = s.reg target)) ∧
  (∀ (s : State) (target : Reg), s.halted = none → (s.reg target).toNat % 2 = 1 → ∀ i : Instr,
    (∃ dest src1 low, i = .jalr dest src1 low ∧ low.extractLsb' 0 3 = target) ∨ (∃ dest src1, i = .jalrHigh dest src1 target) →
    ∃ t, exec i s = .next t ∧ t.pc = s.reg target ∧
      step t = .next { t with halted := some ⟨.misalignedFetch, s.reg target, none⟩ })

/- The prefix-extension unit and the operands -/

/-- R101: Prefix installs (0x801F, {dest, src1, src2} << 5) and advances the pc; with an extension pending it raises
PrefixAfterPrefix. -/
def Obligations.PrefixInstallsTheExtension : Prop :=
  ∀ (sign : BitVec 1) (dest src1 : BitVec 3) (src2 : BitVec 5) (s : State),
    (encode s.cfg.opcodeMap (.prefixOp sign dest src1 src2)).toNat =
      Rule.word s.cfg.opcodeMap.prefixOp sign.toNat dest.toNat src1.toNat src2.toNat ∧
    (s.ext = ⟨0xFFFF, 0x0000⟩ →
      ∃ t, exec (.prefixOp sign dest src1 src2) s = .next t ∧ t.ext.mask = 0x801F ∧
        t.ext.bits.toNat = dest.toNat * 2 ^ 13 + src1.toNat * 2 ^ 10 + src2.toNat * 2 ^ 5 ∧ t.pc = s.pc + 2 ∧
        Rule.KeepsRegs s t ∧ Rule.KeepsMem s t ∧ t.halted = s.halted ∧ t.cfg = s.cfg) ∧
    (s.ext ≠ ⟨0xFFFF, 0x0000⟩ →
      exec (.prefixOp sign dest src1 src2) s =
        .next (Rule.raised s .prefixAfterPrefix (some (s.cfg.opcodeMap.prefixOp ++ sign ++ dest ++ src1 ++ src2))))

/-- R76, which the spec marks as derived: where each bit of a combined immediate comes from, for the nominal values of R70,
R71, R72 and R74. -/
def Obligations.CombinedImmediateBits : Prop :=
  ∀ (s : State) (sign : BitVec 1) (dest src1 : BitVec 3) (src2 : BitVec 5) (nom : Word),
    nom = nomLi sign src1 src2 ∨ nom = nom6 sign src2 ∨ nom = nomJal sign dest src1 src2 →
    nom.extractLsb' 0 5 = src2 ∧ nom.extractLsb' 15 1 = sign ∧
    (s.ext = ⟨0xFFFF, 0x0000⟩ → s.combine nom = nom) ∧
    (∀ pd pa pb, s.ext = prefixExt pd pa pb →
      (s.combine nom).extractLsb' 0 5 = src2 ∧
      (s.combine nom).extractLsb' 5 10 = pd.extractLsb' 0 2 ++ pa ++ pb ∧
      (s.combine nom).extractLsb' 15 1 = sign ||| pd.extractLsb' 2 1)

/-- R105, R160, R161: operand B, and the effective addresses of loads and stores, modulo 2^16, with the register-select form for
loads and stores as LOAD_OFFSET_ALIAS and STORE_OFFSET_ALIAS say. -/
def Obligations.OperandMuxAndEffectiveAddresses : Prop :=
  ∀ (s : State) (sign : BitVec 1) (base : Reg) (src2 : BitVec 5),
    s.operandB sign src2 = Rule.operand s true sign src2 ∧
    (s.loadAddress sign base src2).toNat =
      ((s.reg base).toNat + (Rule.operand s s.cfg.loadOffsetAlias sign src2).toNat) % 2 ^ 16 ∧
    (s.storeAddress sign base src2).toNat =
      ((s.reg base).toNat + (Rule.operand s s.cfg.storeOffsetAlias sign src2).toNat) % 2 ^ 16

/- Li and the ALU -/

/-- R120: Li writes the combined sext_9 immediate. -/
def Obligations.LiWritesTheCombinedImmediate : Prop :=
  ∀ (sign : BitVec 1) (dest : Reg) (src1 : BitVec 3) (src2 : BitVec 5) (s : State),
    (encode s.cfg.opcodeMap (.li sign dest src1 src2)).toNat =
      Rule.word s.cfg.opcodeMap.li sign.toNat dest.toNat src1.toNat src2.toNat ∧
    ∃ t, exec (.li sign dest src1 src2) s = .next t ∧
      Rule.WritesReg s t dest (Rule.combine s ((sign ++ src1 ++ src2).signExtend 16)) ∧
      Rule.KeepsMem s t ∧ Rule.Retires s t (s.pc + 2)

/-- R121: Add, modulo 2^16. -/
def Obligations.AddWrapsModulo65536 : Prop :=
  ∀ (sign : BitVec 1) (dest src1 : Reg) (src2 : BitVec 5) (s : State),
    (encode s.cfg.opcodeMap (.add sign dest src1 src2)).toNat =
      Rule.word s.cfg.opcodeMap.add sign.toNat dest.toNat src1.toNat src2.toNat ∧
    ∃ t, exec (.add sign dest src1 src2) s = .next t ∧
      Rule.WritesReg s t dest
        (BitVec.ofNat 16 (((s.reg src1).toNat + (Rule.operand s true sign src2).toNat) % 2 ^ 16)) ∧
      Rule.KeepsMem s t ∧ Rule.Retires s t (s.pc + 2)

/-- R122: Subr in the order SUBR_ORDER gives, modulo 2^16. -/
def Obligations.SubrSubtractsInTheParametersOrder : Prop :=
  ∀ (sign : BitVec 1) (dest src1 : Reg) (src2 : BitVec 5) (s : State),
    (encode s.cfg.opcodeMap (.subr sign dest src1 src2)).toNat =
      Rule.word s.cfg.opcodeMap.subr sign.toNat dest.toNat src1.toNat src2.toNat ∧
    ∃ t, exec (.subr sign dest src1 src2) s = .next t ∧
      Rule.WritesReg s t dest
        (BitVec.ofInt 16
          (if s.cfg.subrOrder = .rs1MinusOperand then ((s.reg src1).toNat : Int) - (Rule.operand s true sign src2).toNat
          else ((Rule.operand s true sign src2).toNat : Int) - (s.reg src1).toNat)) ∧
      Rule.KeepsMem s t ∧ Rule.Retires s t (s.pc + 2)

/-- R123, R124, R125: And, Or and Xor, bit by bit. -/
def Obligations.LogicOperatesBitByBit : Prop :=
  ∀ (sign : BitVec 1) (dest src1 : Reg) (src2 : BitVec 5) (s : State),
    ((encode s.cfg.opcodeMap (.and sign dest src1 src2)).toNat =
        Rule.word s.cfg.opcodeMap.and sign.toNat dest.toNat src1.toNat src2.toNat ∧
      (encode s.cfg.opcodeMap (.or sign dest src1 src2)).toNat =
        Rule.word s.cfg.opcodeMap.or sign.toNat dest.toNat src1.toNat src2.toNat ∧
      (encode s.cfg.opcodeMap (.xor sign dest src1 src2)).toNat =
        Rule.word s.cfg.opcodeMap.xor sign.toNat dest.toNat src1.toNat src2.toNat) ∧
    (∃ t v, exec (.and sign dest src1 src2) s = .next t ∧ Rule.WritesReg s t dest v ∧
      (∀ i, v.getLsbD i = ((s.reg src1).getLsbD i && (Rule.operand s true sign src2).getLsbD i)) ∧
      Rule.KeepsMem s t ∧ Rule.Retires s t (s.pc + 2)) ∧
    (∃ t v, exec (.or sign dest src1 src2) s = .next t ∧ Rule.WritesReg s t dest v ∧
      (∀ i, v.getLsbD i = ((s.reg src1).getLsbD i || (Rule.operand s true sign src2).getLsbD i)) ∧
      Rule.KeepsMem s t ∧ Rule.Retires s t (s.pc + 2)) ∧
    (∃ t v, exec (.xor sign dest src1 src2) s = .next t ∧ Rule.WritesReg s t dest v ∧
      (∀ i, v.getLsbD i = Bool.xor ((s.reg src1).getLsbD i) ((Rule.operand s true sign src2).getLsbD i)) ∧
      Rule.KeepsMem s t ∧ Rule.Retires s t (s.pc + 2))

/- Shifts -/

/-- R142: any Shr word: ReservedShift when SHR_MAP reserves its selector, otherwise the selected variant's shift of x[src1] by
the variant's amount modulo 16 (R143), under every SHR_MAP. -/
def Obligations.ShrDispatchesByTheShiftMap : Prop :=
  ∀ (f : Fields) (s : State),
    match s.cfg.shrMap.entry f.sign (f.src2.extractLsb' 3 2) with
    | .reserved =>
      exec (decodeShr f) s =
        .next (Rule.raised s .reservedShift (some (s.cfg.opcodeMap.shr ++ f.sign ++ f.dest ++ f.src1 ++ f.src2)))
    | .variant v =>
      ∃ t, exec (decodeShr f) s = .next t ∧
        Rule.WritesReg s t f.dest (Rule.shift (s.reg f.src1) (Rule.amount s f.src2 v) v) ∧
        Rule.KeepsMem s t ∧ Rule.Retires s t (s.pc + 2)

/-- R144, R145: srli and srai under the default SHR_MAP. -/
def Obligations.RightShiftsByImmediate : Prop :=
  ∀ (dest src1 : Reg) (n : BitVec 4) (s : State), s.cfg.shrMap = ShrMap.default →
    ((encode s.cfg.opcodeMap (.srli dest src1 n)).toNat =
        Rule.word s.cfg.opcodeMap.shr 0 dest.toNat src1.toNat n.toNat ∧
      ∃ t, exec (.srli dest src1 n) s = .next t ∧
        Rule.WritesReg s t dest (Rule.shift (s.reg src1) n.toNat .srli) ∧
        Rule.KeepsMem s t ∧ Rule.Retires s t (s.pc + 2)) ∧
    ((encode s.cfg.opcodeMap (.srai dest src1 n)).toNat =
        Rule.word s.cfg.opcodeMap.shr 0 dest.toNat src1.toNat (16 + n.toNat) ∧
      ∃ t, exec (.srai dest src1 n) s = .next t ∧
        Rule.WritesReg s t dest (Rule.shift (s.reg src1) n.toNat .srai) ∧
        Rule.KeepsMem s t ∧ Rule.Retires s t (s.pc + 2))

/-- R146, R147, R149: srl, sra and sll under the default SHR_MAP; the amount is the register's low 4 bits (R143). -/
def Obligations.ShiftsByRegister : Prop :=
  ∀ (dest src1 r : Reg) (s : State), s.cfg.shrMap = ShrMap.default →
    ((encode s.cfg.opcodeMap (.srl dest src1 r)).toNat =
        Rule.word s.cfg.opcodeMap.shr 1 dest.toNat src1.toNat r.toNat ∧
      ∃ t, exec (.srl dest src1 r) s = .next t ∧
        Rule.WritesReg s t dest (Rule.shift (s.reg src1) ((s.reg r).toNat % 16) .srl) ∧
        Rule.KeepsMem s t ∧ Rule.Retires s t (s.pc + 2)) ∧
    ((encode s.cfg.opcodeMap (.sra dest src1 r)).toNat =
        Rule.word s.cfg.opcodeMap.shr 1 dest.toNat src1.toNat (8 + r.toNat) ∧
      ∃ t, exec (.sra dest src1 r) s = .next t ∧
        Rule.WritesReg s t dest (Rule.shift (s.reg src1) ((s.reg r).toNat % 16) .sra) ∧
        Rule.KeepsMem s t ∧ Rule.Retires s t (s.pc + 2)) ∧
    ((encode s.cfg.opcodeMap (.sll dest src1 r)).toNat =
        Rule.word s.cfg.opcodeMap.shr 1 dest.toNat src1.toNat (24 + r.toNat) ∧
      ∃ t, exec (.sll dest src1 r) s = .next t ∧
        Rule.WritesReg s t dest (Rule.shift (s.reg src1) ((s.reg r).toNat % 16) .sll) ∧
        Rule.KeepsMem s t ∧ Rule.Retires s t (s.pc + 2))

/-- R148: slli under the default SHR_MAP. -/
def Obligations.LeftShiftByImmediate : Prop :=
  ∀ (dest src1 : Reg) (n : BitVec 3) (s : State), s.cfg.shrMap = ShrMap.default →
    (encode s.cfg.opcodeMap (.slli dest src1 n)).toNat =
        Rule.word s.cfg.opcodeMap.shr 1 dest.toNat src1.toNat (16 + n.toNat) ∧
      ∃ t, exec (.slli dest src1 n) s = .next t ∧
        Rule.WritesReg s t dest (Rule.shift (s.reg src1) n.toNat .slli) ∧
        Rule.KeepsMem s t ∧ Rule.Retires s t (s.pc + 2)

/-- The shifts and the register-indirect Jal compute nothing from the extension state: a completed step leaves the same state
whatever extension was pending (R106, which the spec marks as derived; I18). -/
def Obligations.ShiftsAndIndirectJalIgnoreTheExtension : Prop :=
  ∀ (i : Instr) (s t : State) (e : Ext),
    (match i with
      | .srli _ _ _ | .srai _ _ _ | .srl _ _ _ | .sra _ _ _ | .slli _ _ _ | .sll _ _ _ => True
      | .jalr _ _ _ | .jalrHigh _ _ _ => True
      | _ => False) →
    s.halted = none → t.halted = none → exec i s = .next t → exec i { s with ext := e } = .next t

/- Memory, stores and loads -/

/-- R41: MemRead and MemWrite are little-endian, in every canonical memory. -/
def Obligations.MemoryIsLittleEndian : Prop :=
  ∀ (m : Memory) (a v : Word), Memory.wf m = true →
    (Memory.readWord m a).toNat = (Memory.readByte m a).toNat + 256 * (Memory.readByte m (a + 1)).toNat ∧
    (∀ b : Word, (Memory.readByte (Memory.apply m (some (.byte a v))) b).toNat =
      if b = a then v.toNat % 256 else (Memory.readByte m b).toNat) ∧
    (∀ b : Word, (Memory.readByte (Memory.apply m (some (.word a v))) b).toNat =
      if b = a then v.toNat % 256 else if b = a + 1 then v.toNat / 256 else (Memory.readByte m b).toNat) ∧
    (∀ s : State, s.fetchWord = Memory.readWord s.mem s.pc)

/-- R162: Sw stores the data register's two bytes at an even effective address and raises MisalignedStore at an odd one. -/
def Obligations.SwStoresTheWord : Prop :=
  ∀ (sign : BitVec 1) (data base : Reg) (src2 : BitVec 5) (s : State) (ea : Word), Memory.wf s.mem = true →
    ea = s.reg base + Rule.operand s s.cfg.storeOffsetAlias sign src2 →
    (encode s.cfg.opcodeMap (.sw sign data base src2)).toNat =
      Rule.word s.cfg.opcodeMap.sw sign.toNat data.toNat base.toNat src2.toNat ∧
    (ea.toNat % 2 = 0 →
      ∃ t, exec (.sw sign data base src2) s = .next t ∧
        (Memory.readByte t.mem ea).toNat = (s.reg data).toNat % 256 ∧
        (Memory.readByte t.mem (ea + 1)).toNat = (s.reg data).toNat / 256 ∧
        (∀ a, a ≠ ea → a ≠ ea + 1 → Memory.readByte t.mem a = Memory.readByte s.mem a) ∧
        Rule.KeepsRegs s t ∧ Rule.Retires s t (s.pc + 2)) ∧
    (ea.toNat % 2 = 1 →
      exec (.sw sign data base src2) s =
        .next (Rule.raised s .misalignedStore (some (s.cfg.opcodeMap.sw ++ sign ++ data ++ base ++ src2))))

/-- R163: Sb stores the data register's low byte at any effective address. -/
def Obligations.SbStoresTheByte : Prop :=
  ∀ (sign : BitVec 1) (data base : Reg) (src2 : BitVec 5) (s : State) (ea : Word), Memory.wf s.mem = true →
    ea = s.reg base + Rule.operand s s.cfg.storeOffsetAlias sign src2 →
    (encode s.cfg.opcodeMap (.sb sign data base src2)).toNat =
      Rule.word s.cfg.opcodeMap.sb sign.toNat data.toNat base.toNat src2.toNat ∧
    ∃ t, exec (.sb sign data base src2) s = .next t ∧
      (Memory.readByte t.mem ea).toNat = (s.reg data).toNat % 256 ∧
      (∀ a, a ≠ ea → Memory.readByte t.mem a = Memory.readByte s.mem a) ∧
      Rule.KeepsRegs s t ∧ Rule.Retires s t (s.pc + 2)

/-- R164: Lw loads {mem[ea+1], mem[ea]} from an even effective address and raises MisalignedLoad at an odd one. -/
def Obligations.LwLoadsTheWord : Prop :=
  ∀ (sign : BitVec 1) (dest base : Reg) (src2 : BitVec 5) (s : State) (ea : Word),
    ea = s.reg base + Rule.operand s s.cfg.loadOffsetAlias sign src2 →
    (encode s.cfg.opcodeMap (.lw sign dest base src2)).toNat =
      Rule.word s.cfg.opcodeMap.lw sign.toNat dest.toNat base.toNat src2.toNat ∧
    (ea.toNat % 2 = 0 →
      ∃ t, exec (.lw sign dest base src2) s = .next t ∧
        Rule.WritesReg s t dest (BitVec.ofNat 16
          ((Memory.readByte s.mem ea).toNat + 256 * (Memory.readByte s.mem (ea + 1)).toNat)) ∧
        Rule.KeepsMem s t ∧ Rule.Retires s t (s.pc + 2)) ∧
    (ea.toNat % 2 = 1 →
      exec (.lw sign dest base src2) s =
        .next (Rule.raised s .misalignedLoad (some (s.cfg.opcodeMap.lw ++ sign ++ dest ++ base ++ src2))))

/-- R165: Lb loads a byte sign-extended, from any effective address. -/
def Obligations.LbSignExtends : Prop :=
  ∀ (sign : BitVec 1) (dest base : Reg) (src2 : BitVec 5) (s : State) (ea : Word),
    ea = s.reg base + Rule.operand s s.cfg.loadOffsetAlias sign src2 →
    (encode s.cfg.opcodeMap (.lb sign dest base src2)).toNat =
      Rule.word s.cfg.opcodeMap.lb sign.toNat dest.toNat base.toNat src2.toNat ∧
    ∃ t, exec (.lb sign dest base src2) s = .next t ∧
      Rule.WritesReg s t dest (BitVec.ofInt 16 (Memory.readByte s.mem ea).toInt) ∧
      Rule.KeepsMem s t ∧ Rule.Retires s t (s.pc + 2)

/-- R166: Lbu loads a byte zero-extended, from any effective address. -/
def Obligations.LbuZeroExtends : Prop :=
  ∀ (sign : BitVec 1) (dest base : Reg) (src2 : BitVec 5) (s : State) (ea : Word),
    ea = s.reg base + Rule.operand s s.cfg.loadOffsetAlias sign src2 →
    (encode s.cfg.opcodeMap (.lbu sign dest base src2)).toNat =
      Rule.word s.cfg.opcodeMap.lbu sign.toNat dest.toNat base.toNat src2.toNat ∧
    ∃ t, exec (.lbu sign dest base src2) s = .next t ∧
      Rule.WritesReg s t dest (BitVec.ofNat 16 (Memory.readByte s.mem ea).toNat) ∧
      Rule.KeepsMem s t ∧ Rule.Retires s t (s.pc + 2)

/-- R49: a load returns the bytes an earlier store wrote: after an Sw completes, an Lw from the same address loads the stored
word, an Lbu its low byte, and an Lbu from the next address its high byte. -/
def Obligations.LoadReturnsTheStoredValue : Prop :=
  ∀ (sign sign' : BitVec 1) (data base dest base' : Reg) (src2 src2' : BitVec 5) (s t : State),
    Memory.wf s.mem = true → t.halted = none → exec (.sw sign data base src2) s = .next t →
    (t.loadAddress sign' base' src2' = s.storeAddress sign base src2 →
      (∃ u, exec (.lw sign' dest base' src2') t = .next u ∧ u.reg dest = s.reg data ∧ u.halted = none) ∧
      (∃ u, exec (.lbu sign' dest base' src2') t = .next u ∧ (u.reg dest).toNat = (s.reg data).toNat % 256)) ∧
    (t.loadAddress sign' base' src2' = s.storeAddress sign base src2 + 1 →
      ∃ u, exec (.lbu sign' dest base' src2') t = .next u ∧ (u.reg dest).toNat = (s.reg data).toNat / 256)

/-- R52: a store over the very next instruction is seen by its fetch. -/
def Obligations.NextFetchSeesTheStore : Prop :=
  ∀ (sign : BitVec 1) (data base : Reg) (src2 : BitVec 5) (s : State),
    Memory.wf s.mem = true → s.halted = none → s.pc.toNat % 2 = 0 → s.storeAddress sign base src2 = s.pc + 2 →
    ∃ t, exec (.sw sign data base src2) s = .next t ∧ t.pc = s.pc + 2 ∧ t.fetchWord = s.reg data ∧
      step t = exec (decode s.cfg.opcodeMap (s.reg data)) t

/- Control transfer -/

/-- R181: any Jal word: x[7] <- pc + 2; the target is x[src2[2:0]] when sign = 1 and src2 < 24, and B + 2 * the combined sext_12
offset otherwise, computed from the values before the write. -/
def Obligations.JalChoosesItsForm : Prop :=
  ∀ (f : Fields) (s : State),
    ∃ t, exec (decodeJal f) s = .next t ∧ Rule.WritesReg s t 7#3 (s.pc + 2) ∧ Rule.KeepsMem s t ∧
      Rule.Retires s t
        (if f.sign = 1#1 ∧ f.src2.toNat < 24 then s.reg (f.src2.extractLsb' 0 3)
        else Rule.base s + 2 * Rule.combine s ((f.sign ++ f.dest ++ f.src1 ++ f.src2).signExtend 16))

/-- R182: the register-indirect Jal, both of its rows: the target is the old x[src2[2:0]], an extension pending or not. -/
def Obligations.JalIndirectJumpsToTheRegister : Prop :=
  ∀ (dest src1 : BitVec 3) (s : State),
    (∀ low : BitVec 4,
      (encode s.cfg.opcodeMap (.jalr dest src1 low)).toNat =
        Rule.word s.cfg.opcodeMap.jal 1 dest.toNat src1.toNat low.toNat ∧
      ∃ t, exec (.jalr dest src1 low) s = .next t ∧ Rule.WritesReg s t 7#3 (s.pc + 2) ∧ Rule.KeepsMem s t ∧
        Rule.Retires s t (s.reg (BitVec.ofNat 3 (low.toNat % 8)))) ∧
    (∀ target : Reg,
      (encode s.cfg.opcodeMap (.jalrHigh dest src1 target)).toNat =
        Rule.word s.cfg.opcodeMap.jal 1 dest.toNat src1.toNat (16 + target.toNat) ∧
      ∃ t, exec (.jalrHigh dest src1 target) s = .next t ∧ Rule.WritesReg s t 7#3 (s.pc + 2) ∧ Rule.KeepsMem s t ∧
        Rule.Retires s t (s.reg target))

/-- R183: the relative Jal, both of its rows: pc <- B + (w << 1) with w the combined offset; from an even pc the target is
even. -/
def Obligations.JalRelativeAddsTheOffset : Prop :=
  ∀ (dest src1 : BitVec 3) (s : State),
    (∀ src2 : BitVec 5,
      (encode s.cfg.opcodeMap (.jal dest src1 src2)).toNat =
        Rule.word s.cfg.opcodeMap.jal 0 dest.toNat src1.toNat src2.toNat ∧
      ∃ t, exec (.jal dest src1 src2) s = .next t ∧ Rule.WritesReg s t 7#3 (s.pc + 2) ∧ Rule.KeepsMem s t ∧
        Rule.Retires s t (Rule.base s + 2 * Rule.combine s ((0#1 ++ dest ++ src1 ++ src2).signExtend 16)) ∧
        (s.pc.toNat % 2 = 0 → t.pc.toNat % 2 = 0)) ∧
    (∀ low : BitVec 3,
      (encode s.cfg.opcodeMap (.jalBack dest src1 low)).toNat =
        Rule.word s.cfg.opcodeMap.jal 1 dest.toNat src1.toNat (24 + low.toNat) ∧
      ∃ t, exec (.jalBack dest src1 low) s = .next t ∧ Rule.WritesReg s t 7#3 (s.pc + 2) ∧ Rule.KeepsMem s t ∧
        Rule.Retires s t (Rule.base s + 2 * Rule.combine s ((1#1 ++ dest ++ src1 ++ (3#2 ++ low)).signExtend 16)) ∧
        (s.pc.toNat % 2 = 0 → t.pc.toNat % 2 = 0))

/-- R184, R186 to R189, R191, R192: the six conditions of Skipc, on l = x[src1] and r = opB; a taken skip adds 4 to the pc. -/
def Obligations.SkipcSkipsOnItsCondition : Prop :=
  ∀ (sign : BitVec 1) (src1 : Reg) (src2 : BitVec 5) (s : State) (l r : Word),
    l = s.reg src1 → r = Rule.operand s true sign src2 →
    ∀ (i : Instr) (code : Nat) (taken : Prop),
      (i = .skipcBeq sign src1 src2 ∧ code = 0 ∧ taken = (l = r)) ∨
      (i = .skipcBne sign src1 src2 ∧ code = 1 ∧ taken = (l ≠ r)) ∨
      (i = .skipcBlt sign src1 src2 ∧ code = 4 ∧ taken = (l.toInt < r.toInt)) ∨
      (i = .skipcBge sign src1 src2 ∧ code = 5 ∧ taken = (l.toInt ≥ r.toInt)) ∨
      (i = .skipcBltu sign src1 src2 ∧ code = 6 ∧ taken = (l.toNat < r.toNat)) ∨
      (i = .skipcBgeu sign src1 src2 ∧ code = 7 ∧ taken = (l.toNat ≥ r.toNat)) →
      (encode s.cfg.opcodeMap i).toNat = Rule.word s.cfg.opcodeMap.skipc sign.toNat code src1.toNat src2.toNat ∧
      ∃ t, exec i s = .next t ∧ Rule.KeepsRegs s t ∧ Rule.KeepsMem s t ∧
        (taken → Rule.Retires s t (s.pc + 4)) ∧ (¬ taken → Rule.Retires s t (s.pc + 2))

/-- R185: a reserved condition raises ReservedCondition under RESERVED_COND = fault, and is never taken under eval_false. -/
def Obligations.ReservedConditionsFollowTheParameter : Prop :=
  ∀ (sign : BitVec 1) (src1 : Reg) (src2 : BitVec 5) (s : State) (i : Instr) (code : BitVec 3),
    (i = .skipcReserved2 sign src1 src2 ∧ code = 2#3) ∨ (i = .skipcReserved3 sign src1 src2 ∧ code = 3#3) →
    (s.cfg.reservedCond = .fault →
      exec i s = .next (Rule.raised s .reservedCondition (some (s.cfg.opcodeMap.skipc ++ sign ++ code ++ src1 ++ src2)))) ∧
    (s.cfg.reservedCond = .evalFalse →
      ∃ t, exec i s = .next t ∧ Rule.KeepsRegs s t ∧ Rule.KeepsMem s t ∧ Rule.Retires s t (s.pc + 2))

/-- R253: `jal .` reached with no extension pending: from its second execution on, the step changes nothing. -/
def Obligations.JalToItselfIsAFixedPoint : Prop :=
  ∀ s : State, s.halted = none → s.pc.toNat % 2 = 0 → s.ext = ⟨0xFFFF, 0x0000⟩ → s.cfg.jalRelBase = .a →
    decode s.cfg.opcodeMap (Rule.wordAtPc s) = .jal 0 0 0 →
    ∃ t, step s = .next t ∧ step t = .next t ∧ t.pc = s.pc ∧ t.mem = s.mem ∧ Rule.WritesReg s t 7#3 (s.pc + 2)

/-- R257, which the spec marks as derived: two Prefix words executed in a row fault at the second one, at its own address;
under the default map 0x0000 is the all-zero Prefix. -/
def Obligations.TwoPrefixesInARowFault : Prop :=
  (∀ (s : State) (sign sign' : BitVec 1) (dest src1 dest' src1' : BitVec 3) (src2 src2' : BitVec 5),
    s.halted = none → s.pc.toNat % 2 = 0 → s.ext = ⟨0xFFFF, 0x0000⟩ →
    decode s.cfg.opcodeMap (Memory.readWord s.mem s.pc) = .prefixOp sign dest src1 src2 →
    decode s.cfg.opcodeMap (Memory.readWord s.mem (s.pc + 2)) = .prefixOp sign' dest' src1' src2' →
    ∃ t, step s = .next t ∧ t.halted = none ∧ t.ext = prefixExt dest src1 src2 ∧
      step t = .next { t with
        halted := some ⟨.prefixAfterPrefix, s.pc + 2, some (Memory.readWord s.mem (s.pc + 2))⟩ }) ∧
  decode OpcodeMap.default 0x0000 = .prefixOp 0 0 0 0

/-- R258, which the spec marks as derived: a Prefix at 0xFFFE extends the instruction at 0x0000: the next step runs it with
the extension installed. -/
def Obligations.PrefixAtTheTopExtendsAddressZero : Prop :=
  ∀ (s : State) (sign : BitVec 1) (dest src1 : BitVec 3) (src2 : BitVec 5),
    s.halted = none → s.pc = 0xFFFE → s.ext = ⟨0xFFFF, 0x0000⟩ →
    decode s.cfg.opcodeMap (Rule.wordAtPc s) = .prefixOp sign dest src1 src2 →
    ∃ t, step s = .next t ∧ t.pc = 0x0000 ∧ t.ext = prefixExt dest src1 src2 ∧
      step t = exec (decode s.cfg.opcodeMap (Memory.readWord s.mem 0x0000)) t

/-- R256, which the spec marks as derived: a taken Skipc, of any of the six conditions, before a Prefix lands on the word after
that Prefix with no extension pending, and the next step runs that word unprefixed. -/
def Obligations.SkipOverAPrefixRunsUnprefixed : Prop :=
  ∀ (s : State) (sign : BitVec 1) (src1 : Reg) (src2 : BitVec 5) (l r : Word) (i : Instr) (taken : Prop),
    s.halted = none → s.pc.toNat % 2 = 0 → l = s.reg src1 → r = Rule.operand s true sign src2 →
    (i = .skipcBeq sign src1 src2 ∧ taken = (l = r)) ∨ (i = .skipcBne sign src1 src2 ∧ taken = (l ≠ r)) ∨
      (i = .skipcBlt sign src1 src2 ∧ taken = (l.toInt < r.toInt)) ∨
      (i = .skipcBge sign src1 src2 ∧ taken = (l.toInt ≥ r.toInt)) ∨
      (i = .skipcBltu sign src1 src2 ∧ taken = (l.toNat < r.toNat)) ∨
      (i = .skipcBgeu sign src1 src2 ∧ taken = (l.toNat ≥ r.toNat)) →
    taken → decode s.cfg.opcodeMap (Rule.wordAtPc s) = i →
    Rule.isPrefix s.cfg.opcodeMap (Memory.readWord s.mem (s.pc + 2)) →
    ∃ t, step s = .next t ∧ t.halted = none ∧ t.pc = s.pc + 4 ∧ t.ext = ⟨0xFFFF, 0x0000⟩ ∧ Rule.KeepsRegs s t ∧
      Rule.KeepsMem s t ∧ step t = exec (decode s.cfg.opcodeMap (Memory.readWord s.mem (s.pc + 4))) t

/- The Encoder and the machine -/

/-- R90 for Li, over all 65536 values: executing the emitted words (a Prefix first if one was emitted) leaves x[rd] equal to the
caller's value, all other registers unchanged. -/
def Obligations.EmittedLiLoadsEveryValue : Prop :=
  ∀ (rd : Reg) (v : Int) (s : State),
    -32768 ≤ v → v ≤ 32767 → s.cfg.opcodeMap.wf = true → s.ext = ⟨0xFFFF, 0x0000⟩ →
    ∃ ws t, emitLi s.cfg false rd v = .ok ws ∧ (ws.length = 1 ↔ -256 ≤ v ∧ v ≤ 255) ∧ execWords ws s = .next t ∧
      (t.reg rd).toInt = v ∧ (∀ r, r ≠ rd → t.reg r = s.reg r) ∧ Rule.KeepsMem s t ∧
      Rule.Retires s t (s.pc + 2 * BitVec.ofNat 16 ws.length)

/-- R90 for the 6-bit immediates of the ALU, Skipc, stores and loads, over all 65536 values: in the step after the emitted
Prefix, or unprefixed where none was emitted (exactly R91's native ranges), the machine's operand is the caller's value and
never a register: operand B, or the offset that the effective address adds to its base. -/
def Obligations.EmittedSixBitOperandsAreTheImmediate : Prop :=
  ∀ (o : Imm6Op) (dest src1 : BitVec 3) (v : Int) (s : State),
    -32768 ≤ v → v ≤ 32767 → s.cfg.opcodeMap.wf = true → s.ext = ⟨0xFFFF, 0x0000⟩ →
    ∃ pre w t, emitImm6 s.cfg false o dest src1 v = .ok (pre ++ [w]) ∧ execWords pre s = .next t ∧
      (unpack w).opcode = s.cfg.opcodeMap.value o.opcode ∧ (unpack w).dest = dest ∧ (unpack w).src1 = src1 ∧
      (o ∈ [Imm6Op.add, .subr, .and, .or, .xor, .skipc] →
        t.operandB (unpack w).sign (unpack w).src2 = BitVec.ofInt 16 v) ∧
      (o ∈ [Imm6Op.sw, .sb] → t.storeAddress (unpack w).sign src1 (unpack w).src2 = s.reg src1 + BitVec.ofInt 16 v) ∧
      (o ∈ [Imm6Op.lw, .lb, .lbu] → t.loadAddress (unpack w).sign src1 (unpack w).src2 = s.reg src1 + BitVec.ofInt 16 v) ∧
      Rule.KeepsRegs s t ∧ Rule.KeepsMem s t ∧ t.halted = s.halted ∧ t.cfg = s.cfg ∧
      (pre = [] ↔ (if Rule.selects s o = true then -24 else -32) ≤ v ∧ v ≤ 31)

/-- R93, which the spec marks as derived: executing an assembled Jal to an even target T sets x[7] to A + 2 and the pc to T,
where A is the Jal word's own address: the place of assembly, or the address after an emitted Prefix. An odd T is an error.
The Prefix is left out exactly when the offset from the place of assembly is native (the model's choice, log entry 18). -/
def Obligations.EmittedJalReachesItsTarget : Prop :=
  ∀ (target : Word) (s : State), s.pc.toNat % 2 = 0 → s.cfg.opcodeMap.wf = true → s.ext = ⟨0xFFFF, 0x0000⟩ →
    (target.toNat % 2 = 1 → emitJal s.cfg false s.pc target = .error .encodingRange) ∧
    (target.toNat % 2 = 0 →
      ∃ ws a t, emitJal s.cfg false s.pc target = .ok ws ∧ execWords ws s = .next t ∧
        t.reg 7#3 = a + 2 ∧ t.pc = target ∧ (∀ r, r ≠ 7#3 → t.reg r = s.reg r) ∧ Rule.KeepsMem s t ∧ t.halted = s.halted ∧
        (Rule.nativeJal (Rule.jalOffset s.cfg.jalRelBase s.pc target) → ws.length = 1 ∧ a = s.pc) ∧
        (¬ Rule.nativeJal (Rule.jalOffset s.cfg.jalRelBase s.pc target) → ws.length = 2 ∧ a = s.pc + 2))

/-- R90 for the shifts: under every SHR_MAP an emitted shift is one word, and executing it shifts x[rs1] by the caller's
amount or by the amount register, whatever extension is pending; under the default SHR_MAP every amount of R91's ranges is
emitted, and no other. Which selector is emitted under another map is the model's choice (log entry 19). That an immediate
shift asked for a register variant, and a register shift asked for an immediate one, emit nothing is the model's choice too
(log entry 21). -/
def Obligations.EmittedShiftsRunTheirVariant : Prop :=
  ∀ (v : ShiftVariant) (rd rs1 : Reg) (s : State), s.cfg.opcodeMap.wf = true →
    (∀ (n : Nat) (ws : List Word), emitShiftImm s.cfg v rd rs1 n = .ok ws →
      ws.length = 1 ∧ ∃ t, execWords ws s = .next t ∧ Rule.WritesReg s t rd (Rule.shift (s.reg rs1) n v) ∧
        Rule.KeepsMem s t ∧ Rule.Retires s t (s.pc + 2)) ∧
    (∀ (r : Reg) (ws : List Word), emitShiftReg s.cfg v rd rs1 r = .ok ws →
      ws.length = 1 ∧ ∃ t, execWords ws s = .next t ∧
        Rule.WritesReg s t rd (Rule.shift (s.reg rs1) ((s.reg r).toNat % 16) v) ∧
        Rule.KeepsMem s t ∧ Rule.Retires s t (s.pc + 2)) ∧
    (s.cfg.shrMap = ShrMap.default →
      (∀ n : Nat, (∃ ws, emitShiftImm s.cfg v rd rs1 n = .ok ws) ↔
        (v = .srli ∧ n < 16) ∨ (v = .srai ∧ n < 16) ∨ (v = .slli ∧ n < 8)) ∧
      (∀ r : Reg, (∃ ws, emitShiftReg s.cfg v rd rs1 r = .ok ws) ↔ v = .srl ∨ v = .sra ∨ v = .sll))

/-- R94: while an extension is pending the Encoder reports an error at every call that would emit a Prefix, raw or for an
immediate that is not native; with none pending a raw Prefix is emitted. Two clauses rest on the model's choices: that a Jal
needs a Prefix exactly when its offset from the place of assembly is not native (log entry 18; at an odd place, log entry 22),
and that PrefixAfterPrefix is the error of a raw Prefix whose fields are out of range too (log entry 21). -/
def Obligations.EncoderRefusesPrefixAfterPrefix : Prop :=
  ∀ s : State,
    (∀ sign dest src1 src2 : Nat, emitRaw s.cfg.opcodeMap true .prefixOp sign dest src1 src2 = .error .prefixAfterPrefix) ∧
    (∀ dest src1 src2 : Nat,
      emitPrefix s.cfg.opcodeMap true dest src1 src2 = .error .prefixAfterPrefix ∧
      (dest < 8 → src1 < 8 → src2 < 32 →
        ∃ w, emitPrefix s.cfg.opcodeMap false dest src1 src2 = .ok [w] ∧
          w.toNat = Rule.word s.cfg.opcodeMap.prefixOp 0 dest src1 src2)) ∧
    (∀ (rd : Reg) (v : Int), -32768 ≤ v → v ≤ 32767 → ¬ (-256 ≤ v ∧ v ≤ 255) →
      emitLi s.cfg true rd v = .error .prefixAfterPrefix) ∧
    (∀ (o : Imm6Op) (dest src1 : BitVec 3) (v : Int), -32768 ≤ v → v ≤ 32767 →
      ¬ Rule.native6 (Rule.selects s o) v →
      emitImm6 s.cfg true o dest src1 v = .error .prefixAfterPrefix) ∧
    (∀ place target : Word, target.toNat % 2 = 0 → ¬ Rule.nativeJal (Rule.jalOffset s.cfg.jalRelBase place target) →
      emitJal s.cfg true place target = .error .prefixAfterPrefix)

/-- R94: no call of the Encoder emits a Prefix word right after a Prefix word, one emitted before the call included, so that a
program emitted call by call never holds two in a row. -/
def Obligations.EncoderNeverEmitsTwoPrefixesInARow : Prop :=
  ∀ (s : State) (pendingHere : Bool) (ws : List Word), s.cfg.opcodeMap.wf = true →
    (∃ o sign dest src1 src2, emitRaw s.cfg.opcodeMap pendingHere o sign dest src1 src2 = .ok ws) ∨
    (∃ dest src1 src2, emitPrefix s.cfg.opcodeMap pendingHere dest src1 src2 = .ok ws) ∨
    (∃ rd v, emitLi s.cfg pendingHere rd v = .ok ws) ∨
    (∃ o dest src1 v, emitImm6 s.cfg pendingHere o dest src1 v = .ok ws) ∨
    (∃ o dest src1 r, ws = [emitSelect s.cfg o dest src1 r]) ∨
    (∃ place target, emitJal s.cfg pendingHere place target = .ok ws) ∨ (∃ r, ws = [emitJalReg s.cfg r]) ∨
    (∃ v rd rs1 n, emitShiftImm s.cfg v rd rs1 n = .ok ws) ∨ (∃ v rd rs1 r, emitShiftReg s.cfg v rd rs1 r = .ok ws) →
    Rule.noTwoPrefixes s.cfg.opcodeMap (pendingHere = true) ws

/-- R91, which the spec marks as derived: a value or an amount outside the caller's range, and an odd Jal target (R93), are
EncodingRangeErrors, an extension pending or not (that the range error is the one reported while an extension is pending is
the model's choice, log entry 21). -/
def Obligations.EncoderRejectsOutOfRangeOperands : Prop :=
  ∀ (s : State) (pendingHere : Bool),
    (∀ (rd : Reg) (v : Int), v < -32768 ∨ 32767 < v → emitLi s.cfg pendingHere rd v = .error .encodingRange) ∧
    (∀ (o : Imm6Op) (dest src1 : BitVec 3) (v : Int), v < -32768 ∨ 32767 < v →
      emitImm6 s.cfg pendingHere o dest src1 v = .error .encodingRange) ∧
    (∀ place target : Word, target.toNat % 2 = 1 → emitJal s.cfg pendingHere place target = .error .encodingRange) ∧
    (∀ (rd rs1 : Reg) (n : Nat), 16 ≤ n → emitShiftImm s.cfg .srli rd rs1 n = .error .encodingRange ∧
      emitShiftImm s.cfg .srai rd rs1 n = .error .encodingRange) ∧
    (∀ (rd rs1 : Reg) (n : Nat), 8 ≤ n → emitShiftImm s.cfg .slli rd rs1 n = .error .encodingRange)
end

