-- ==== Sys2Proof/Laws/Encoding.lean ====
section
/-! SUPPORT. The laws of the word layout and of OPCODE_MAP. -/

namespace Sys2Proof

/-- A bit of five fields laid one above the other (R6, R60). -/
theorem getLsbD_append5 {v w x y z : Nat} (a : BitVec v) (b : BitVec w) (c : BitVec x) (d : BitVec y) (e : BitVec z)
    (i : Nat) :
    (a ++ b ++ c ++ d ++ e).getLsbD i =
      if i < z then e.getLsbD i else if i < z + y then d.getLsbD (i - z)
      else if i < z + y + x then c.getLsbD (i - (z + y)) else if i < z + y + x + w then b.getLsbD (i - (z + y + x))
      else a.getLsbD (i - (z + y + x + w)) := by
  simp only [BitVec.getLsbD_append, Nat.sub_sub]
  split_ifs <;> first | rfl | omega

/-- The bit positions of the five fields (R60). -/
theorem pack_getLsbD (f : Fields) (i : Nat) :
    (pack f).getLsbD i =
      if i < 5 then f.src2.getLsbD i else if i < 8 then f.src1.getLsbD (i - 5)
      else if i < 11 then f.dest.getLsbD (i - 8) else if i < 12 then f.sign.getLsbD (i - 11)
      else f.opcode.getLsbD (i - 12) :=
  getLsbD_append5 f.opcode f.sign f.dest f.src1 f.src2 i

/-- Fields laid out in a word are read back (R61, R62). -/
theorem unpack_pack (f : Fields) : unpack (pack f) = f := by
  obtain ⟨o, s, d, a, b⟩ := f
  simp only [unpack, Fields.mk.injEq]
  refine ⟨?_, ?_, ?_, ?_, ?_⟩ <;>
    refine BitVec.eq_of_getLsbD_eq (fun i hi => ?_) <;>
    simp only [BitVec.getLsbD_extractLsb', pack_getLsbD, hi, decide_true, Bool.true_and, Nat.add_sub_cancel_left, Nat.zero_add]
      <;> split_ifs <;> first | rfl | omega

/-- No bit of a word is outside the five fields (R60). -/
theorem pack_unpack (w : Word) : pack (unpack w) = w := by
  refine BitVec.eq_of_getLsbD_eq (fun i hi => ?_)
  simp only [pack_getLsbD, unpack, BitVec.getLsbD_extractLsb']
  split_ifs with h1 h2 h3 h4
  · simp [h1]
  · rw [decide_eq_true (by omega), Bool.true_and]; congr 1; omega
  · rw [decide_eq_true (by omega), Bool.true_and]; congr 1; omega
  · rw [decide_eq_true (by omega), Bool.true_and]; congr 1; omega
  · rw [decide_eq_true (by omega), Bool.true_and]; congr 1; omega

/-- The name an opcode value stands for has that value (R64). -/
theorem OpcodeMap.value_of_nameOf {m : OpcodeMap} {v : BitVec 4} {o : Opcode} (h : m.nameOf v = some o) :
    m.value o = v := by
  simpa using List.find?_some h

theorem Opcode.mem_all (o : Opcode) : o ∈ Opcode.all := by
  cases o <;> simp [Opcode.all]

/-- In a list whose values are distinct, the first member with the value of `o` is `o`. -/
theorem find_value {m : OpcodeMap} {o : Opcode} {l : List Opcode} (hl : (l.map m.value).Nodup) (ho : o ∈ l) :
    l.find? (fun p => m.value p == m.value o) = some o := by
  induction l with
  | nil => simp at ho
  | cons p rest ih =>
    simp only [List.map_cons, List.nodup_cons] at hl
    rcases List.mem_cons.1 ho with rfl | ho
    · simp
    · have hne : m.value p ≠ m.value o := fun h => hl.1 (h ▸ List.mem_map_of_mem ho)
      simp [hne, ih hl.2 ho]

/-- Under an injective OPCODE_MAP the value of a name stands for that name (R5, R64). -/
theorem OpcodeMap.nameOf_value {m : OpcodeMap} (hm : m.wf = true) (o : Opcode) : m.nameOf (m.value o) = some o :=
  find_value (by simpa [OpcodeMap.wf] using hm) (Opcode.mem_all o)

theorem OpcodeMap.default_wf : OpcodeMap.default.wf = true := by decide

end Sys2Proof
end

