-- ==== Sys2Proof/Laws/Encoder.lean ====
section
/-! SUPPORT. For each shared operation of the Encoder, one lemma that says once everything it can emit. -/

namespace Sys2Proof.Machine
open Sys2Proof

/-- The word alone when the immediate is native; otherwise a Prefix before it, and only with no extension pending (R91, R94). -/
theorem emitWithPrefix_cases {m : OpcodeMap} {pendingHere native : Bool} {u w : Word} {ws : List Word}
    (h : emitWithPrefix m pendingHere native u w = .ok ws) :
    (native = true ∧ ws = [w]) ∨ (native = false ∧ pendingHere = false ∧ ws = [prefixWord m u, w]) := by
  cases native <;> cases pendingHere <;> simp_all [emitWithPrefix, eq_comm]

@[simp] theorem emitWithPrefix_pending (m : OpcodeMap) (u w : Word) :
    emitWithPrefix m true false u w = .error .prefixAfterPrefix := rfl

/-- No opcode with a 6-bit operand is Prefix. -/
@[simp] theorem Imm6Op.opcode_ne_prefixOp (o : Imm6Op) : o.opcode ≠ .prefixOp := by
  cases o <;> decide

/-- A raw word is the fields' own, and no Prefix while an extension is pending (R62, R94). -/
theorem emitRaw_cases {m : OpcodeMap} {pendingHere : Bool} {o : Opcode} {sign dest src1 src2 : Nat} {ws : List Word}
    (h : emitRaw m pendingHere o sign dest src1 src2 = .ok ws) :
    ¬ (o = .prefixOp ∧ pendingHere = true) ∧ ∃ w, encodeRaw m o sign dest src1 src2 = .ok w ∧ ws = [w] := by
  unfold emitRaw at h
  split at h
  · cases h
  · next hp =>
    cases he : encodeRaw m o sign dest src1 src2 with
    | error e => simp [he, Except.map] at h
    | ok w => exact ⟨hp, w, rfl, by simpa [he, Except.map, eq_comm] using h⟩

/-- An emitted shift is one Shr word of a candidate whose selector SHR_MAP maps to the variant (R141). -/
theorem emitShift_cases {p : Params} {v : ShiftVariant} {rd rs1 : Reg} {cs : List (BitVec 1 × BitVec 5)} {ws : List Word}
    (h : emitShift p v rd rs1 cs = .ok ws) :
    ∃ c ∈ cs, p.shrMap.entry c.1 (c.2.extractLsb' 3 2) = .variant v ∧
      ws = [pack ⟨p.opcodeMap.value .shr, c.1, rd, rs1, c.2⟩] := by
  unfold emitShift at h
  split at h
  · next c hc => exact ⟨c, List.mem_of_find?_eq_some hc, by simpa using List.find?_some hc, by simpa [eq_comm] using h⟩
  · cases h

/-- A Jal word alone where the offset from the place is native; otherwise after a Prefix, its offset from the address after it
(R91 to R93). -/
theorem emitJal_cases {p : Params} {pendingHere : Bool} {place t : Word} {ws : List Word}
    (h : emitJal p pendingHere place t = .ok ws) :
    (nativeJal (jalOffset p.jalRelBase place t) = true ∧
      ∃ sign dest src1 src2, ws = [pack ⟨p.opcodeMap.value .jal, sign, dest, src1, src2⟩]) ∨
    (nativeJal (jalOffset p.jalRelBase place t) = false ∧ pendingHere = false ∧
      ∃ dest src1 src2, ws = [prefixWord p.opcodeMap (BitVec.ofInt 16 (jalOffset p.jalRelBase (place + 2) t)),
        pack ⟨p.opcodeMap.value .jal, 0#1, dest, src1, src2⟩]) := by
  unfold emitJal at h
  split at h
  · cases h
  · dsimp only at h
    split at h
    · next hn => exact .inl ⟨hn, _, _, _, _, by simpa [eq_comm] using h⟩
    · next hn =>
      rcases emitWithPrefix_cases h with ⟨hc, -⟩ | ⟨-, hp, hw⟩
      · cases hc
      · exact .inr ⟨by simpa using hn, hp, _, _, _, hw⟩

end Sys2Proof.Machine
end

