-- ==== Sys2Proof/Laws/State.lean ====
section
/-! SUPPORT. One lemma per field per update of `State`: the register ports, taking a fault, and the commit of a step. -/

namespace Sys2Proof.Machine
open Sys2Proof

@[simp] theorem State.raise_regs (s : State) (k : FaultKind) (w : Option Word) : (s.raise k w).regs = s.regs := rfl
@[simp] theorem State.raise_pc (s : State) (k : FaultKind) (w : Option Word) : (s.raise k w).pc = s.pc := rfl
@[simp] theorem State.raise_ext (s : State) (k : FaultKind) (w : Option Word) : (s.raise k w).ext = s.ext := rfl
@[simp] theorem State.raise_mem (s : State) (k : FaultKind) (w : Option Word) : (s.raise k w).mem = s.mem := rfl
@[simp] theorem State.raise_cfg (s : State) (k : FaultKind) (w : Option Word) : (s.raise k w).cfg = s.cfg := rfl
@[simp] theorem State.raise_halted (s : State) (k : FaultKind) (w : Option Word) :
    (s.raise k w).halted = some { kind := k, pc := s.pc, word := w } := rfl
@[simp] theorem State.raise_reg (s : State) (k : FaultKind) (w : Option Word) (r : Reg) :
    (s.raise k w).reg r = s.reg r := rfl

@[simp] theorem State.commit_regs (s : State) (e : Effects) : (s.commit e).regs = s.writePort e.regWrite := rfl
@[simp] theorem State.commit_pc (s : State) (e : Effects) :
    (s.commit e).pc = nextPc s.cfg.jalRelBase s.pc e.pc := rfl
@[simp] theorem State.commit_ext (s : State) (e : Effects) : (s.commit e).ext = e.ext := rfl
@[simp] theorem State.commit_mem (s : State) (e : Effects) : (s.commit e).mem = Memory.apply s.mem e.memWrite := rfl
@[simp] theorem State.commit_halted (s : State) (e : Effects) : (s.commit e).halted = s.halted := rfl
@[simp] theorem State.commit_cfg (s : State) (e : Effects) : (s.commit e).cfg = s.cfg := rfl

@[simp] theorem State.writePort_none (s : State) : s.writePort none = s.regs := rfl
@[simp] theorem State.writePort_some (s : State) (r : Reg) (v : Word) :
    s.writePort (some (r, v)) = s.regs.set r.toNat v r.isLt := rfl

/-- A register after a commit: the written value at the write port's address, the old value elsewhere (R107). -/
theorem State.commit_reg (s : State) (e : Effects) (r : Reg) :
    (s.commit e).reg r =
      match e.regWrite with
      | none => s.reg r
      | some (d, v) => if r = d then v else s.reg r := by
  rcases h : e.regWrite with _ | ⟨d, v⟩
  · simp [State.reg, h]
  · simp [State.reg, h, Vector.getElem_set, BitVec.toNat_inj, eq_comm]

@[simp] theorem State.commit_reg_none (s : State) (e : Effects) (h : e.regWrite = none) (r : Reg) :
    (s.commit e).reg r = s.reg r := by
  simp [State.commit_reg, h]

theorem State.commit_reg_dest (s : State) (e : Effects) (d : Reg) (v : Word) (h : e.regWrite = some (d, v)) :
    (s.commit e).reg d = v := by
  simp [State.commit_reg, h]

theorem State.commit_reg_other (s : State) (e : Effects) (d r : Reg) (v : Word) (h : e.regWrite = some (d, v))
    (hr : r ≠ d) : (s.commit e).reg r = s.reg r := by
  simp [State.commit_reg, h, hr]

@[simp] theorem Memory.apply_none (m : Memory) : Memory.apply m none = m := rfl
@[simp] theorem Memory.apply_byte (m : Memory) (a v : Word) :
    Memory.apply m (some (.byte a v)) = Memory.writeByte m a (v.extractLsb' 0 8) := rfl
@[simp] theorem Memory.apply_word (m : Memory) (a v : Word) :
    Memory.apply m (some (.word a v)) = Memory.writeWord m a v := rfl

@[simp] theorem nextPc_plus2 (b : JalRelBase) (pc : Word) : nextPc b pc .plus2 = pc + 2 := rfl
@[simp] theorem nextPc_plus4 (b : JalRelBase) (pc : Word) : nextPc b pc .plus4 = pc + 4 := rfl
@[simp] theorem nextPc_relative (b : JalRelBase) (pc w : Word) : nextPc b pc (.relative w) = relBase b pc + (w <<< 1) := rfl
@[simp] theorem nextPc_absolute (b : JalRelBase) (pc t : Word) : nextPc b pc (.absolute t) = t := rfl
@[simp] theorem relBase_a (pc : Word) : relBase .a pc = pc := rfl
@[simp] theorem relBase_aPlus2 (pc : Word) : relBase .aPlus2 pc = pc + 2 := rfl

@[simp] theorem Ext.identity_mask : Ext.identity.mask = 0xFFFF := rfl
@[simp] theorem Ext.identity_bits : Ext.identity.bits = 0x0000 := rfl
@[simp] theorem prefixExt_mask (d a : BitVec 3) (b : BitVec 5) : (prefixExt d a b).mask = 0x801F := rfl
@[simp] theorem prefixExt_bits (d a : BitVec 3) (b : BitVec 5) : (prefixExt d a b).bits = d ++ a ++ b ++ 0#5 := rfl

@[simp] theorem State.loadBytes_fields (s : State) (a : Word) (bs : List Byte) :
    (s.loadBytes a bs).regs = s.regs ∧ (s.loadBytes a bs).pc = s.pc ∧ (s.loadBytes a bs).ext = s.ext ∧
      (s.loadBytes a bs).halted = s.halted ∧ (s.loadBytes a bs).cfg = s.cfg := by
  induction bs generalizing s a with
  | nil => exact ⟨rfl, rfl, rfl, rfl, rfl⟩
  | cons b rest ih => simpa [State.loadBytes] using ih { s with mem := Memory.writeByte s.mem a b } (a + 1)

end Sys2Proof.Machine
end

