-- ==== Sys2Proof/Laws/Memory.lean ====
section
/-! SUPPORT. The laws of memory: a read after a write, and every memory operation keeps the canonical form. -/

namespace Sys2Proof.Machine
open Sys2Proof

theorem Memory.wf_cons {k : Nat} {v : Byte} {rest : Memory} :
    Memory.wf ((k, v) :: rest) = true ↔
      k < 65536 ∧ v ≠ Memory.unlisted ∧ (∀ c ∈ rest, k < c.1) ∧ Memory.wf rest = true := by
  simp [Memory.wf, and_assoc]

@[simp] theorem Memory.lookup_nil (a : Nat) : Memory.lookup [] a = Memory.unlisted := rfl

theorem Memory.lookup_cons (k : Nat) (v : Byte) (rest : Memory) (a : Nat) :
    Memory.lookup ((k, v) :: rest) a = if a = k then v else Memory.lookup rest a := rfl

/-- An address below every listed one is not listed. -/
theorem Memory.lookup_below (m : Memory) (a : Nat) (h : ∀ c ∈ m, a < c.1) :
    Memory.lookup m a = Memory.unlisted := by
  induction m with
  | nil => rfl
  | cons c rest ih =>
    obtain ⟨k, v⟩ := c
    have hk : a < k := h (k, v) (by simp)
    rw [Memory.lookup_cons, if_neg (by omega)]
    exact ih (fun c hc => h c (by simp [hc]))

/-- A read after a write: the written byte at its address, the old byte elsewhere. -/
theorem Memory.lookup_insert (m : Memory) (hm : Memory.wf m = true) (a : Nat) (v : Byte) (b : Nat) :
    Memory.lookup (Memory.insert m a v) b = if b = a then v else Memory.lookup m b := by
  induction m with
  | nil =>
    by_cases hv : v = Memory.unlisted
    · simp [Memory.insert, hv]
    · simp [Memory.insert, hv, Memory.lookup_cons]
  | cons c rest ih =>
    obtain ⟨k, w⟩ := c
    obtain ⟨-, -, hlt, hrest⟩ := Memory.wf_cons.1 hm
    have hgap : ∀ c ∈ rest, k < c.1 := hlt
    by_cases h1 : a < k
    · have hlow : Memory.lookup ((k, w) :: rest) a = Memory.unlisted :=
        Memory.lookup_below _ _ (by
          intro c hc
          rcases List.mem_cons.1 hc with rfl | hc
          · exact h1
          · exact lt_trans h1 (hgap c hc))
      by_cases hv : v = Memory.unlisted
      · simp only [Memory.insert, h1, hv, if_true]
        split
        · next hb => rw [hb, hlow]
        · rfl
      · simp [Memory.insert, h1, hv, Memory.lookup_cons]
    · by_cases h2 : a = k
      · subst h2
        by_cases hv : v = Memory.unlisted
        · simp only [Memory.insert, h1, hv, if_true, if_false, Memory.lookup_cons]
          split
          · next hb => rw [hb, Memory.lookup_below rest a hgap]
          · rfl
        · simp only [Memory.insert, h1, hv, if_true, if_false, Memory.lookup_cons]
          split <;> simp_all
      · simp only [Memory.insert, h1, h2, if_false, Memory.lookup_cons]
        by_cases hb : b = k
        · simp [hb, Ne.symm h2]
        · simp [hb, ih hrest]

/-- Every listed address of the new memory is the written one or was listed. -/
theorem Memory.mem_insert {m : Memory} {a : Nat} {v : Byte} {c : Host.Cell} (h : c ∈ Memory.insert m a v) :
    c.1 = a ∨ c ∈ m := by
  induction m with
  | nil =>
    by_cases hv : v = Memory.unlisted <;> simp_all [Memory.insert]
  | cons d rest ih =>
    obtain ⟨k, w⟩ := d
    simp only [Memory.insert] at h
    split at h
    · split at h
      · exact .inr h
      · rcases List.mem_cons.1 h with rfl | h
        · exact .inl rfl
        · exact .inr h
    · split at h
      · split at h
        · exact .inr (by simp [h])
        · rcases List.mem_cons.1 h with rfl | h
          · exact .inl rfl
          · exact .inr (by simp [h])
      · rcases List.mem_cons.1 h with rfl | h
        · exact .inr (by simp)
        · rcases ih h with h | h
          · exact .inl h
          · exact .inr (by simp [h])

/-- A write keeps the canonical form. -/
theorem Memory.insert_wf (m : Memory) (hm : Memory.wf m = true) (a : Nat) (ha : a < 65536) (v : Byte) :
    Memory.wf (Memory.insert m a v) = true := by
  induction m with
  | nil =>
    by_cases hv : v = Memory.unlisted
    · simp [Memory.insert, hv, Memory.wf]
    · simp [Memory.insert, hv, ha, Memory.wf]
  | cons c rest ih =>
    obtain ⟨k, w⟩ := c
    obtain ⟨hk, hw, hlt, hrest⟩ := Memory.wf_cons.1 hm
    by_cases h1 : a < k
    · by_cases hv : v = Memory.unlisted
      · simpa [Memory.insert, h1, hv] using hm
      · simp only [Memory.insert, h1, hv, if_true, if_false]
        refine Memory.wf_cons.2 ⟨ha, hv, ?_, hm⟩
        intro c hc
        rcases List.mem_cons.1 hc with rfl | hc
        · exact h1
        · exact lt_trans h1 (hlt c hc)
    · by_cases h2 : a = k
      · subst h2
        by_cases hv : v = Memory.unlisted
        · simpa [Memory.insert, h1, hv] using hrest
        · simp only [Memory.insert, h1, hv, if_true, if_false]
          exact Memory.wf_cons.2 ⟨ha, hv, hlt, hrest⟩
      · simp only [Memory.insert, h1, h2, if_false]
        refine Memory.wf_cons.2 ⟨hk, hw, ?_, ih hrest⟩
        intro c hc
        rcases Memory.mem_insert hc with h | h
        · omega
        · exact hlt c h

/-- A read of one byte after a write of one byte (R41). -/
theorem Memory.readByte_writeByte (m : Memory) (hm : Memory.wf m = true) (a b : Word) (v : Byte) :
    Memory.readByte (Memory.writeByte m a v) b = if b = a then v else Memory.readByte m b := by
  simp [Memory.readByte, Memory.writeByte, Memory.lookup_insert m hm, BitVec.toNat_inj]

theorem Memory.writeByte_wf (m : Memory) (hm : Memory.wf m = true) (a : Word) (v : Byte) :
    Memory.wf (Memory.writeByte m a v) = true :=
  Memory.insert_wf m hm a.toNat a.isLt v

theorem Memory.writeWord_wf (m : Memory) (hm : Memory.wf m = true) (a v : Word) :
    Memory.wf (Memory.writeWord m a v) = true :=
  Memory.writeByte_wf _ (Memory.writeByte_wf m hm a _) _ _

theorem Memory.apply_wf (m : Memory) (hm : Memory.wf m = true) (w : Option MemWrite) :
    Memory.wf (Memory.apply m w) = true := by
  rcases w with _ | ⟨a, v⟩ | ⟨a, v⟩
  · exact hm
  · exact Memory.writeByte_wf m hm a _
  · exact Memory.writeWord_wf m hm a v

/-- The host's load keeps the canonical form (R251). -/
theorem State.loadBytes_wf (s : State) (hs : Memory.wf s.mem = true) (a : Word) (bs : List Byte) :
    Memory.wf (s.loadBytes a bs).mem = true := by
  induction bs generalizing s a with
  | nil => exact hs
  | cons b rest ih => exact ih _ (Memory.writeByte_wf _ hs a b) _

theorem State.reset_mem_wf : Memory.wf State.reset.mem = true := rfl

/-- A read of one byte after a write of one word: the low byte at its address, the high byte above it (R41). -/
theorem Memory.readByte_writeWord (m : Memory) (hm : Memory.wf m = true) (a b v : Word) :
    Memory.readByte (Memory.writeWord m a v) b =
      if b = a + 1 then v.extractLsb' 8 8 else if b = a then v.extractLsb' 0 8 else Memory.readByte m b := by
  rw [Memory.writeWord, Memory.readByte_writeByte _ (Memory.writeByte_wf m hm a _),
    Memory.readByte_writeByte m hm]

/-- A word is its high byte above its low byte (R41). -/
theorem high_append_low (v : Word) : v.extractLsb' 8 8 ++ v.extractLsb' 0 8 = v := by
  have h : v.extractLsb' 8 8 ++ v.extractLsb' 0 8 = v.extractLsb' 0 (8 + 8) :=
    BitVec.extractLsb'_append_extractLsb'_eq_extractLsb' (by rfl)
  rw [h]
  exact BitVec.extractLsb'_eq_self

/-- The word stored is the word read back (R41, R49). -/
theorem Memory.readWord_writeWord (m : Memory) (hm : Memory.wf m = true) (a v : Word) :
    Memory.readWord (Memory.writeWord m a v) a = v := by
  have hne : a ≠ a + 1 := by
    intro h
    have h1 : (0 : Word) = 1 := add_left_cancel ((add_zero a).trans h)
    exact absurd h1 (by decide)
  rw [Memory.readWord, Memory.readByte_writeWord m hm, Memory.readByte_writeWord m hm, if_pos rfl,
    if_neg hne, if_pos rfl]
  exact high_append_low v

end Sys2Proof.Machine
end

