-- ==== Sys2Proof/Laws/Exec.lean ====
section
/-! SUPPORT. For each shared operation, one lemma that says once everything it can do. -/

namespace Sys2Proof.Machine
open Sys2Proof

theorem State.pending_eq_false {s : State} : s.pending = false ↔ s.ext = Ext.identity := by
  simp [State.pending]

theorem State.pending_eq_true {s : State} : s.pending = true ↔ s.ext ≠ Ext.identity := by
  simp [State.pending]

/-- With no extension pending, an immediate is its nominal value (R102). -/
theorem State.combine_identity {s : State} (h : s.ext = Ext.identity) (nom : Word) : s.combine nom = nom := by
  have hones : nom &&& 65535#16 = nom := BitVec.and_allOnes
  simp [State.combine, h, hones]

theorem State.regSelect_iff {s : State} {sign : BitVec 1} {src2 : BitVec 5} :
    s.regSelect sign src2 = true ↔ s.ext = Ext.identity ∧ sign = 1#1 ∧ src2.extractLsb' 3 2 = 0#2 := by
  simp [State.regSelect, State.pending, and_assoc]

/-- The operand mux: the register when the form is allowed and selected, otherwise the combined immediate (R105). -/
theorem State.muxOperand_cases (s : State) (allowed : Bool) (sign : BitVec 1) (src2 : BitVec 5) :
    (allowed = true ∧ s.regSelect sign src2 = true ∧ s.muxOperand allowed sign src2 = s.reg (selIndex src2)) ∨
      ((allowed = false ∨ s.regSelect sign src2 = false) ∧
        s.muxOperand allowed sign src2 = s.combine (nom6 sign src2)) := by
  cases allowed <;> cases h : s.regSelect sign src2 <;> simp [State.muxOperand, h]

theorem aluStep_eq (op : Word → Word → Word) (sign : BitVec 1) (dest src1 : Reg) (src2 : BitVec 5) (s : State) :
    aluStep op sign dest src1 src2 s =
      .next (s.commit { regWrite := some (dest, op (s.reg src1) (s.operandB sign src2)) }) := rfl

/-- Shr raises ReservedShift on a reserved selector and shifts by the selected variant otherwise (R142). -/
theorem shrStep_cases (i : Instr) (sign : BitVec 1) (dest src1 : Reg) (src2 : BitVec 5) (s : State) :
    (s.cfg.shrMap.entry sign (src2.extractLsb' 3 2) = .reserved ∧
        shrStep i sign dest src1 src2 s = raiseBy i .reservedShift s) ∨
      ∃ v, s.cfg.shrMap.entry sign (src2.extractLsb' 3 2) = .variant v ∧
        shrStep i sign dest src1 src2 s =
          .next (s.commit { regWrite := some (dest, shiftValue (s.reg src1) (s.shiftAmount src2 v) v) }) := by
  unfold shrStep
  split
  · next h => exact .inl ⟨h, rfl⟩
  · next v h => exact .inr ⟨v, h, rfl⟩

theorem jalStep_eq (target : PcSelect) (s : State) :
    jalStep target s = .next (s.commit { regWrite := some (7#3, s.pc + 2), pc := target }) := rfl

/-- Skipc writes no register and no memory, and advances the pc by 4 or by 2 (R184). -/
theorem skipStep_cases (c : Cond) (sign : BitVec 1) (src1 : Reg) (src2 : BitVec 5) (s : State) :
    (c.eval (s.reg src1) (s.operandB sign src2) = true ∧
        skipStep c sign src1 src2 s = .next (s.commit { pc := .plus4 })) ∨
      (c.eval (s.reg src1) (s.operandB sign src2) = false ∧ skipStep c sign src1 src2 s = .next (s.commit {})) := by
  cases h : c.eval (s.reg src1) (s.operandB sign src2) <;> simp [skipStep, h]

/-- A reserved condition faults or is never taken, by RESERVED_COND (R185). -/
theorem reservedSkip_cases (i : Instr) (s : State) :
    (s.cfg.reservedCond = .fault ∧ reservedSkip i s = raiseBy i .reservedCondition s) ∨
      (s.cfg.reservedCond = .evalFalse ∧ reservedSkip i s = .next (s.commit {})) := by
  unfold reservedSkip
  split
  · next h => exact .inl ⟨h, rfl⟩
  · next h => exact .inr ⟨h, rfl⟩

/-- The extension state an instruction leaves when it completes (R101, R104). -/
def extAfter : Instr → Ext
  | .prefixOp _ dest src1 src2 => prefixExt dest src1 src2
  | _ => Ext.identity

/-- Every instruction answers a next state: it raises a fault with its own word, or it commits its effects; only a store
writes memory, and an instruction that stores writes no register (R22, R45, R104, R221). -/
theorem exec_cases (i : Instr) (s : State) :
    (∃ k, exec i s = .next (s.raise k (some (encode s.cfg.opcodeMap i)))) ∨
      ∃ e, exec i s = .next (s.commit e) ∧ e.ext = extAfter i ∧ (e.memWrite = none ∨ e.regWrite = none) := by
  have shr : ∀ (j : Instr) (sign : BitVec 1) (dest src1 : Reg) (src2 : BitVec 5), extAfter j = Ext.identity →
      (∃ k, shrStep j sign dest src1 src2 s = .next (s.raise k (some (encode s.cfg.opcodeMap j)))) ∨
        ∃ e, shrStep j sign dest src1 src2 s = .next (s.commit e) ∧ e.ext = extAfter j ∧
          (e.memWrite = none ∨ e.regWrite = none) := by
    intro j sign dest src1 src2 hj
    rcases shrStep_cases j sign dest src1 src2 s with ⟨-, h⟩ | ⟨v, -, h⟩
    · exact .inl ⟨_, h⟩
    · exact .inr ⟨_, h, hj.symm, .inl rfl⟩
  have res : ∀ j : Instr, extAfter j = Ext.identity →
      (∃ k, reservedSkip j s = .next (s.raise k (some (encode s.cfg.opcodeMap j)))) ∨
        ∃ e, reservedSkip j s = .next (s.commit e) ∧ e.ext = extAfter j ∧
          (e.memWrite = none ∨ e.regWrite = none) := by
    intro j hj
    rcases reservedSkip_cases j s with ⟨-, h⟩ | ⟨-, h⟩
    · exact .inl ⟨_, h⟩
    · exact .inr ⟨_, h, hj.symm, .inl rfl⟩
  cases i with
  | prefixOp sign dest src1 src2 =>
    by_cases h : s.pending = true
    · exact .inl ⟨_, if_pos h⟩
    · exact .inr ⟨_, if_neg h, rfl, .inl rfl⟩
  | srli => exact shr _ _ _ _ _ rfl
  | srai => exact shr _ _ _ _ _ rfl
  | srl => exact shr _ _ _ _ _ rfl
  | sra => exact shr _ _ _ _ _ rfl
  | slli => exact shr _ _ _ _ _ rfl
  | sll => exact shr _ _ _ _ _ rfl
  | sw sign data base src2 =>
    by_cases h : isOdd (s.storeAddress sign base src2) = true
    · exact .inl ⟨_, if_pos h⟩
    · exact .inr ⟨_, if_neg h, rfl, .inr rfl⟩
  | sb => exact .inr ⟨_, rfl, rfl, .inr rfl⟩
  | lw sign dest base src2 =>
    by_cases h : isOdd (s.loadAddress sign base src2) = true
    · exact .inl ⟨_, if_pos h⟩
    · exact .inr ⟨_, if_neg h, rfl, .inl rfl⟩
  | skipcReserved2 => exact res _ rfl
  | skipcReserved3 => exact res _ rfl
  | unassigned => exact .inl ⟨_, rfl⟩
  | _ => exact .inr ⟨_, rfl, rfl, .inl rfl⟩

/-- A step that answers a next state: the machine was not halted, and it took the fetch fault or ran the instruction at the
pc (R221, R223). -/
theorem step_cases {s t : State} (h : step s = .next t) :
    s.halted = none ∧
      ((isOdd s.pc = true ∧ t = s.raise .misalignedFetch none) ∨
        (isOdd s.pc = false ∧ exec (decode s.cfg.opcodeMap s.fetchWord) s = .next t)) := by
  unfold step at h
  cases hh : s.halted with
  | some r => simp [hh, haltedStep] at h
  | none =>
    refine ⟨rfl, ?_⟩
    simp only [hh] at h
    cases ho : isOdd s.pc with
    | true =>
      simp only [State.fetch, ho, if_true, misalignedFetchStep, Host.Outcome.next.injEq] at h
      exact .inl ⟨rfl, h.symm⟩
    | false =>
      simp only [State.fetch, ho, Bool.false_eq_true, if_false] at h
      exact .inr ⟨rfl, h⟩

end Sys2Proof.Machine
end

