-- ==== Sys2Proof/Laws/PerInstr.lean ====
section
/-! SUPPORT. Facts about every instruction as syntax, one lemma per constructor.
`EncodedFields`: the word of an instruction, taken apart by the decoder's field extraction, has the instruction's fields (R61, R62). -/

namespace Sys2Proof.Laws.EncodedFields
open Sys2Proof

/-- The fields of the instruction's word are the instruction's fields, under every OPCODE_MAP. -/
def Statement (i : Instr) : Prop :=
  ∀ m : OpcodeMap, unpack (encode m i) = i.fields m

theorem prefixOp (sign : BitVec 1) (dest src1 : BitVec 3) (src2 : BitVec 5) : Statement (.prefixOp sign dest src1 src2) :=
  fun m => unpack_pack ((Instr.prefixOp sign dest src1 src2).fields m)

theorem li (sign : BitVec 1) (dest : Reg) (src1 : BitVec 3) (src2 : BitVec 5) : Statement (.li sign dest src1 src2) :=
  fun m => unpack_pack ((Instr.li sign dest src1 src2).fields m)

theorem add (sign : BitVec 1) (dest src1 : Reg) (src2 : BitVec 5) : Statement (.add sign dest src1 src2) :=
  fun m => unpack_pack ((Instr.add sign dest src1 src2).fields m)

theorem subr (sign : BitVec 1) (dest src1 : Reg) (src2 : BitVec 5) : Statement (.subr sign dest src1 src2) :=
  fun m => unpack_pack ((Instr.subr sign dest src1 src2).fields m)

theorem and (sign : BitVec 1) (dest src1 : Reg) (src2 : BitVec 5) : Statement (.and sign dest src1 src2) :=
  fun m => unpack_pack ((Instr.and sign dest src1 src2).fields m)

theorem or (sign : BitVec 1) (dest src1 : Reg) (src2 : BitVec 5) : Statement (.or sign dest src1 src2) :=
  fun m => unpack_pack ((Instr.or sign dest src1 src2).fields m)

theorem xor (sign : BitVec 1) (dest src1 : Reg) (src2 : BitVec 5) : Statement (.xor sign dest src1 src2) :=
  fun m => unpack_pack ((Instr.xor sign dest src1 src2).fields m)

theorem srli (dest src1 : Reg) (amount : BitVec 4) : Statement (.srli dest src1 amount) :=
  fun m => unpack_pack ((Instr.srli dest src1 amount).fields m)

theorem srai (dest src1 : Reg) (amount : BitVec 4) : Statement (.srai dest src1 amount) :=
  fun m => unpack_pack ((Instr.srai dest src1 amount).fields m)

theorem srl (dest src1 amountReg : Reg) : Statement (.srl dest src1 amountReg) :=
  fun m => unpack_pack ((Instr.srl dest src1 amountReg).fields m)

theorem sra (dest src1 amountReg : Reg) : Statement (.sra dest src1 amountReg) :=
  fun m => unpack_pack ((Instr.sra dest src1 amountReg).fields m)

theorem slli (dest src1 : Reg) (amount : BitVec 3) : Statement (.slli dest src1 amount) :=
  fun m => unpack_pack ((Instr.slli dest src1 amount).fields m)

theorem sll (dest src1 amountReg : Reg) : Statement (.sll dest src1 amountReg) :=
  fun m => unpack_pack ((Instr.sll dest src1 amountReg).fields m)

theorem sw (sign : BitVec 1) (data base : Reg) (src2 : BitVec 5) : Statement (.sw sign data base src2) :=
  fun m => unpack_pack ((Instr.sw sign data base src2).fields m)

theorem sb (sign : BitVec 1) (data base : Reg) (src2 : BitVec 5) : Statement (.sb sign data base src2) :=
  fun m => unpack_pack ((Instr.sb sign data base src2).fields m)

theorem lw (sign : BitVec 1) (dest base : Reg) (src2 : BitVec 5) : Statement (.lw sign dest base src2) :=
  fun m => unpack_pack ((Instr.lw sign dest base src2).fields m)

theorem lb (sign : BitVec 1) (dest base : Reg) (src2 : BitVec 5) : Statement (.lb sign dest base src2) :=
  fun m => unpack_pack ((Instr.lb sign dest base src2).fields m)

theorem lbu (sign : BitVec 1) (dest base : Reg) (src2 : BitVec 5) : Statement (.lbu sign dest base src2) :=
  fun m => unpack_pack ((Instr.lbu sign dest base src2).fields m)

theorem jalr (dest src1 : BitVec 3) (low : BitVec 4) : Statement (.jalr dest src1 low) :=
  fun m => unpack_pack ((Instr.jalr dest src1 low).fields m)

theorem jalrHigh (dest src1 : BitVec 3) (target : Reg) : Statement (.jalrHigh dest src1 target) :=
  fun m => unpack_pack ((Instr.jalrHigh dest src1 target).fields m)

theorem jal (dest src1 : BitVec 3) (src2 : BitVec 5) : Statement (.jal dest src1 src2) :=
  fun m => unpack_pack ((Instr.jal dest src1 src2).fields m)

theorem jalBack (dest src1 : BitVec 3) (low : BitVec 3) : Statement (.jalBack dest src1 low) :=
  fun m => unpack_pack ((Instr.jalBack dest src1 low).fields m)

theorem skipcBeq (sign : BitVec 1) (src1 : Reg) (src2 : BitVec 5) : Statement (.skipcBeq sign src1 src2) :=
  fun m => unpack_pack ((Instr.skipcBeq sign src1 src2).fields m)

theorem skipcBne (sign : BitVec 1) (src1 : Reg) (src2 : BitVec 5) : Statement (.skipcBne sign src1 src2) :=
  fun m => unpack_pack ((Instr.skipcBne sign src1 src2).fields m)

theorem skipcReserved2 (sign : BitVec 1) (src1 : Reg) (src2 : BitVec 5) : Statement (.skipcReserved2 sign src1 src2) :=
  fun m => unpack_pack ((Instr.skipcReserved2 sign src1 src2).fields m)

theorem skipcReserved3 (sign : BitVec 1) (src1 : Reg) (src2 : BitVec 5) : Statement (.skipcReserved3 sign src1 src2) :=
  fun m => unpack_pack ((Instr.skipcReserved3 sign src1 src2).fields m)

theorem skipcBlt (sign : BitVec 1) (src1 : Reg) (src2 : BitVec 5) : Statement (.skipcBlt sign src1 src2) :=
  fun m => unpack_pack ((Instr.skipcBlt sign src1 src2).fields m)

theorem skipcBge (sign : BitVec 1) (src1 : Reg) (src2 : BitVec 5) : Statement (.skipcBge sign src1 src2) :=
  fun m => unpack_pack ((Instr.skipcBge sign src1 src2).fields m)

theorem skipcBltu (sign : BitVec 1) (src1 : Reg) (src2 : BitVec 5) : Statement (.skipcBltu sign src1 src2) :=
  fun m => unpack_pack ((Instr.skipcBltu sign src1 src2).fields m)

theorem skipcBgeu (sign : BitVec 1) (src1 : Reg) (src2 : BitVec 5) : Statement (.skipcBgeu sign src1 src2) :=
  fun m => unpack_pack ((Instr.skipcBgeu sign src1 src2).fields m)

theorem unassigned (opcode : BitVec 4) (sign : BitVec 1) (dest src1 : BitVec 3) (src2 : BitVec 5) : Statement (.unassigned opcode sign dest src1 src2) :=
  fun m => unpack_pack ((Instr.unassigned opcode sign dest src1 src2).fields m)

end Sys2Proof.Laws.EncodedFields
end

