-- ==== Sys2Proof/Tests/Slice0.lean ====
section
/-! SUPPORT. Tests: words of spec/30_encoding.md and one-step vectors of spec/95_test_vectors.md (each test names its row), and for
every obligation with hypotheses a concrete case that meets them. -/

namespace Sys2Proof.Tests
open Sys2Proof Sys2Proof.Machine

/-- The reset state with some words at `pc`, and what a vector's start column changes. -/
def start (pc : Word) (words : List Word) (regs : List (Reg × Word) := []) (ext : Ext := Ext.identity)
    (bytes : List (Word × Byte) := []) (cfg : Params := Params.default) : State :=
  let s : State := { State.reset with pc := pc, ext := ext, cfg := cfg }
  let s := regs.foldl (fun t r => { t with regs := t.writePort (some r) }) s
  let s := bytes.foldl (fun t b => t.loadBytes b.1 [b.2]) s
  s.loadBytes pc (words.flatMap (fun w => [w.extractLsb' 0 8, w.extractLsb' 8 8]))

/-- The state after `n` steps that all answer a next state. -/
def run : Nat → State → Option State
  | 0, s => some s
  | n + 1, s =>
    match step s with
    | .next t => run n t
    | _ => none

/-- After `n` steps the machine is not halted, the pc is `pc`, no extension is pending, and register `r` holds `v`. -/
def ends (n : Nat) (s : State) (pc : Word) (r : Reg) (v : Word) : Bool :=
  match run n s with
  | some t => t.halted == none && t.pc == pc && t.ext == Ext.identity && t.reg r == v
  | none => false

/-- After one step the pc is `pc` and the bytes at `a` and `a + 1` are `lo` and `hi`. -/
def stores (n : Nat) (s : State) (pc a : Word) (lo hi : Byte) : Bool :=
  match run n s with
  | some t => t.halted == none && t.pc == pc && Memory.readByte t.mem a == lo && Memory.readByte t.mem (a + 1) == hi
  | none => false

/-- The next state an outcome holds. -/
def answer : Result → Option State
  | .next t => some t
  | _ => none

theorem next_of_answer {r : Result} {t : State} (h : answer r = some t) : r = .next t := by
  cases r <;> simp_all [answer]

/-- One step raises the fault and changes nothing else. -/
def faults (s : State) (kind : FaultKind) (w : Option Word) : Bool :=
  answer (step s) == some { s with halted := some ⟨kind, s.pc, w⟩ }

def pendingExt (bits : Word) : Ext := ⟨0x801F, bits⟩

/- Machines with one parameter other than the default. -/

def aPlus2 : Params := { Params.default with jalRelBase := .aPlus2 }
def evalFalse : Params := { Params.default with reservedCond := .evalFalse }
def reservedShr : Params := { Params.default with shrMap := { ShrMap.default with sign0sel01 := .reserved } }
def noStoreAlias : Params := { Params.default with storeOffsetAlias := false }
def reversedSubr : Params := { Params.default with subrOrder := .operandMinusRs1 }

/- Decoding: words from the encodings of spec/opcode_table.json (R60, R64), and the words of R97. -/

theorem test_decode_prefix : decode OpcodeMap.default 0x07FF = .prefixOp 0 7 7 31 := by decide
theorem test_decode_li : decode OpcodeMap.default 0x1EFF = .li 1 6 7 31 := by decide
theorem test_decode_alu :
    decode OpcodeMap.default 0x2445 = .add 0 4 2 5 ∧ decode OpcodeMap.default 0x3A21 = .subr 1 2 1 1 ∧
      decode OpcodeMap.default 0x422F = .and 0 2 1 15 ∧ decode OpcodeMap.default 0x5A44 = .or 1 2 2 4 ∧
      decode OpcodeMap.default 0x6A3F = .xor 1 2 1 31 := by decide
theorem test_decode_shr :
    decode OpcodeMap.default 0x722F = .srli 2 1 15 ∧ decode OpcodeMap.default 0x723F = .srai 2 1 15 ∧
      decode OpcodeMap.default 0x7A23 = .srl 2 1 3 ∧ decode OpcodeMap.default 0x7A2B = .sra 2 1 3 ∧
      decode OpcodeMap.default 0x7A37 = .slli 2 1 7 ∧ decode OpcodeMap.default 0x7A3B = .sll 2 1 3 := by decide
theorem test_decode_memory :
    decode OpcodeMap.default 0x8B22 = .sw 1 3 1 2 ∧ decode OpcodeMap.default 0x9B3F = .sb 1 3 1 31 ∧
      decode OpcodeMap.default 0xAA20 = .lw 1 2 1 0 ∧ decode OpcodeMap.default 0xB224 = .lb 0 2 1 4 ∧
      decode OpcodeMap.default 0xC225 = .lbu 0 2 1 5 := by decide
theorem test_decode_jal :
    decode OpcodeMap.default 0xDF03 = .jalr 7 0 3 ∧ decode OpcodeMap.default 0xD80F = .jalr 0 0 15 ∧
      decode OpcodeMap.default 0xD813 = .jalrHigh 0 0 3 ∧ decode OpcodeMap.default 0xD7FF = .jal 7 7 31 ∧
      decode OpcodeMap.default 0xD818 = .jalBack 0 0 0 ∧ decode OpcodeMap.default 0xDF9C = .jalBack 7 4 4 := by decide
theorem test_decode_skipc :
    decode OpcodeMap.default 0xE822 = .skipcBeq 1 1 2 ∧ decode OpcodeMap.default 0xE922 = .skipcBne 1 1 2 ∧
      decode OpcodeMap.default 0xE220 = .skipcReserved2 0 1 0 ∧ decode OpcodeMap.default 0xE320 = .skipcReserved3 0 1 0 ∧
      decode OpcodeMap.default 0xEC22 = .skipcBlt 1 1 2 ∧ decode OpcodeMap.default 0xED22 = .skipcBge 1 1 2 ∧
      decode OpcodeMap.default 0xEE3F = .skipcBltu 1 1 31 ∧ decode OpcodeMap.default 0xEF22 = .skipcBgeu 1 1 2 := by decide
theorem test_decode_unassigned : decode OpcodeMap.default 0xF000 = .unassigned 15 0 0 0 0 := by decide

/-- Each byte of a word in memory order: low byte first (R41), as the table's word number reads it. -/
theorem test_decodeTableWord :
    decodeTableWord 16 0x2FA6 = some (.add 1 7 5 6) ∧ decodeBytes OpcodeMap.default [0xA6, 0x2F, 0x00] = .ok (.add 1 7 5 6, [0x00]) := by
  decide
theorem test_decodeBytes_rejects_short_input :
    decodeBytes OpcodeMap.default [] = .error .truncated ∧ decodeBytes OpcodeMap.default [0xA6] = .error .truncated := by
  decide
theorem test_encodeBytes : encodeBytes OpcodeMap.default (.add 1 7 5 6) = [0xA6, 0x2F] := by decide

/- Well-formedness: each check refuses an ill-formed term. -/

theorem test_wf_refuses_an_assigned_opcode : Instr.wf OpcodeMap.default (.unassigned 0 0 0 0 0) = false := by decide
theorem test_wf_admits_the_unassigned_opcode : Instr.wf OpcodeMap.default (.unassigned 15 0 0 0 0) = true := by decide
theorem test_wf_refuses_two_names_with_one_value :
    OpcodeMap.wf { OpcodeMap.default with li := 0x0 } = false ∧ OpcodeMap.wf OpcodeMap.default = true := by decide
theorem test_memory_wf_refuses :
    Memory.wf [(2, 1), (1, 1)] = false ∧ Memory.wf [(1, 1), (1, 2)] = false ∧ Memory.wf [(1, 0x00)] = false ∧
      Memory.wf [(65536, 1)] = false ∧ Memory.wf [(1, 1), (2, 1)] = true := by decide

/- One step (the named rows of spec/95_test_vectors.md). -/

theorem test_V_P2 : step (start 0 [0x07FF]) = .next { start 0 [0x07FF] with pc := 0x0002, ext := ⟨0x801F, 0xFFE0⟩ } :=
  next_of_answer (by decide)
theorem test_V_P4 : faults (start 0 [0x0001] [] (pendingExt 0x0020)) .prefixAfterPrefix (some 0x0001) = true := by decide
theorem test_V_P7 : ends 1 (start 0 [0x1601] [] (pendingExt 0x8000)) 0x0002 6 0x8001 = true := by decide
theorem test_V_L6 : ends 2 (start 0 [0x07F7, 0x1EFF]) 0x0004 6 0xFEFF = true := by decide
theorem test_V_A7 : ends 1 (start 0 [0x2C42] [(2, 0x002A)]) 0x0002 4 0x0054 = true := by decide
theorem test_V_P9 : ends 1 (start 0 [0x2C42] [(2, 0x002A)] (pendingExt 0x7FE0)) 0x0002 4 0x000C = true := by decide
theorem test_V_A12 : ends 1 (start 0 [0x3227] [(1, 0x0005)]) 0x0002 2 0xFFFE = true := by decide
/-- V-A12 under the other SUBR_ORDER: 7 - 5 (R122). -/
theorem test_subr_reversed :
    ends 1 (start 0 [0x3227] [(1, 0x0005)] Ext.identity [] reversedSubr) 0x0002 2 0x0002 = true := by decide
theorem test_V_A16 : ends 1 (start 0 [0x4A3E] [(1, 0x1235)]) 0x0002 2 0x1234 = true := by decide
theorem test_V_A18 : ends 2 (start 0 [0x0001, 0x5234] [(1, 0x1200)]) 0x0004 2 0x1234 = true := by decide
theorem test_V_A20 : ends 1 (start 0 [0x6A3F] [(1, 0x00FF)]) 0x0002 2 0xFF00 = true := by decide
theorem test_V_S1 : ends 1 (start 0 [0x7224] [(1, 0x8010)]) 0x0002 2 0x0801 = true := by decide
/-- R142: a reserved selector faults. -/
theorem test_reserved_shift :
    faults (start 0 [0x7228] [(1, 0x8010)] Ext.identity [] reservedShr) .reservedShift (some 0x7228) = true := by decide
theorem test_V_S4 : ends 1 (start 0 [0x7234] [(1, 0x8010)]) 0x0002 2 0xF801 = true := by decide
theorem test_V_S9 : ends 1 (start 0 [0x7A23] [(1, 0x8010), (3, 0x0014)]) 0x0002 2 0x0801 = true := by decide
theorem test_V_S12 : ends 1 (start 0 [0x7A2B] [(1, 0x8010), (3, 0x0011)]) 0x0002 2 0xC008 = true := by decide
theorem test_V_S17 : ends 1 (start 0 [0x7A33] [(1, 0x0001)] (pendingExt 0x7FE0)) 0x0002 2 0x0008 = true := by decide
theorem test_V_S14 : ends 1 (start 0 [0x7A3B] [(1, 0x0003), (3, 0xFFFF)]) 0x0002 2 0x8000 = true := by decide
theorem test_V_M2 : faults (start 0 [0x8325] [(1, 0x0100), (3, 0xBEEF)]) .misalignedStore (some 0x8325) = true := by decide
theorem test_V_M3 :
    stores 1 (start 0 [0x8B22] [(1, 0x0100), (2, 0x0010), (3, 0xBEEF)]) 0x0002 0x0110 0xEF 0xBE = true := by decide
theorem test_V_M5 : stores 1 (start 0 [0x9B3F] [(1, 0x0100), (3, 0xBEEF)]) 0x0002 0x00FF 0xEF 0x00 = true := by decide
theorem test_V_M6 : stores 1 (start 0 [0x9321] [(1, 0xFFFF), (3, 0x00AA)]) 0x0002 0x0000 0xAA 0x93 = true := by decide
theorem test_V_M9 : faults (start 0 [0xA225] [(1, 0x0100)]) .misalignedLoad (some 0xA225) = true := by decide
theorem test_V_M11 :
    ends 1 (start 0 [0xAA20] [(1, 0x0120), (0, 0x0001)] Ext.identity [(0x0100, 0x11), (0x0101, 0x22)]) 0x0002 2 0x2211 = true := by
  decide
theorem test_V_M12 : ends 1 (start 0 [0xB224] [(1, 0x0100)] Ext.identity [(0x0104, 0xEF)]) 0x0002 2 0xFFEF = true := by decide
theorem test_V_M14 : ends 1 (start 0 [0xC225] [(1, 0x0100)] Ext.identity [(0x0105, 0xBE)]) 0x0002 2 0x00BE = true := by decide
theorem test_V_J2 : ends 1 (start 0x0020 [0xDFFF]) 0x001E 7 0x0022 = true := by decide
theorem test_V_J17 : ends 1 (start 0x0020 [0xDFFF] [] Ext.identity [] aPlus2) 0x0020 7 0x0022 = true := by decide
theorem test_V_J3 : ends 1 (start 0x0002 [0xD007]) 0x0010 7 0x0004 = true := by decide
theorem test_V_J7 : ends 2 (start 0x0004 [0x00FF, 0xD7FD]) 0x4000 7 0x0008 = true := by decide
theorem test_V_J9 : ends 1 (start 0x0010 [0xD807] [(7, 0x0040)]) 0x0040 7 0x0012 = true := by decide
theorem test_V_J11 : ends 1 (start 0x0010 [0xD813] [(3, 0x0080)]) 0x0080 7 0x0012 = true := by decide
theorem test_V_J15 : faults (start 0x0041 [0x1101]) .misalignedFetch none = true := by decide
theorem test_V_K1 : ends 1 (start 0 [0xE822] [(1, 5), (2, 5)]) 0x0004 7 0 = true := by decide
theorem test_V_K2 : ends 1 (start 0 [0xE822] [(1, 5), (2, 6)]) 0x0002 7 0 = true := by decide
theorem test_V_K3 : ends 1 (start 0 [0xE922] [(1, 5), (2, 6)]) 0x0004 7 0 = true := by decide
theorem test_V_K4 : ends 1 (start 0 [0xE922] [(1, 5), (2, 5)]) 0x0002 7 0 = true := by decide
theorem test_V_K6 : ends 1 (start 0 [0xEC22] [(1, 0), (2, 0xFFFF)]) 0x0002 7 0 = true := by decide
theorem test_V_K7 : ends 1 (start 0 [0xEC22] [(1, 0x8000), (2, 0x7FFF)]) 0x0004 7 0 = true := by decide
theorem test_V_K8 : ends 1 (start 0 [0xED22] [(1, 5), (2, 5)]) 0x0004 7 0 = true := by decide
theorem test_V_K9 : ends 1 (start 0 [0xED22] [(1, 0xFFFF), (2, 0)]) 0x0002 7 0 = true := by decide
theorem test_V_K12 : ends 1 (start 0 [0xEE22] [(1, 0x8000), (2, 0x7FFF)]) 0x0002 7 0 = true := by decide
theorem test_V_K16 : ends 1 (start 0 [0xEE3F] [(1, 0xFFFE)]) 0x0004 7 0 = true := by decide
theorem test_V_K13 : ends 1 (start 0 [0xEF22] [(1, 0xFFFF), (2, 0)]) 0x0004 7 0 = true := by decide
theorem test_V_K14 : ends 1 (start 0 [0xEF22] [(1, 0), (2, 1)]) 0x0002 7 0 = true := by decide
theorem test_V_K19 : faults (start 0 [0xE220]) .reservedCondition (some 0xE220) = true := by decide
theorem test_V_K20 : ends 1 (start 0 [0xE320] [] Ext.identity [] evalFalse) 0x0002 7 0 = true := by decide
theorem test_V_F2 : faults (start 0 [0xFFFF] [(1, 1)]) .illegalOpcode (some 0xFFFF) = true := by decide
theorem test_V_F4 : ends 1 (start 0xFFFE [0x1101]) 0x0000 1 0x0001 = true := by decide
/-- V-F5: a halted machine returns its record. -/
theorem test_V_F5 :
    step { start 0 [0xF000] with halted := some ⟨.illegalOpcode, 0, some 0xF000⟩ } =
      .fault (.halted ⟨.illegalOpcode, 0, some 0xF000⟩) := rfl
theorem test_withFetchWord : ends 1 (State.reset.withFetchWord 16 0x1705) 0x0002 7 0x0005 = true := by decide

/- Witnesses: a concrete case that meets the hypotheses of an obligation, one for each of its clauses. -/

/-- EncodeRawInvertsUnpack: both range clauses, at the ends of the ranges. -/
theorem witness_EncodeRawInvertsUnpack :
    (1 < 2 ∧ 7 < 8 ∧ 7 < 8 ∧ 31 < 32) ∧ ¬ (0 < 2 ∧ 8 < 8 ∧ 0 < 8 ∧ 0 < 32) ∧
      encodeRaw OpcodeMap.default .prefixOp 1 7 7 31 = .ok 0x0FFF ∧
      encodeRaw OpcodeMap.default .li 0 8 0 0 = .error .encodingRange ∧
      encodeRaw OpcodeMap.default .li 0 0 0 32 = .error .encodingRange := by decide

theorem witness_DecodeEncodeAgree :
    OpcodeMap.default.wf = true ∧ (Instr.jalBack 7 7 7).wf OpcodeMap.default = true ∧
      (Instr.unassigned 15 1 7 7 31).wf OpcodeMap.default = true := by decide

/-- UnassignedOpcodeFaults: both sides of its equivalences, at the boundary 0xF000; witness_cause_illegalOpcode meets its last
clause. -/
theorem witness_UnassignedOpcodeFaults :
    (∃ op sign dest src1 src2, decode OpcodeMap.default 0xF000 = .unassigned op sign dest src1 src2) ∧
      decode OpcodeMap.default 0xEFFF = .skipcBgeu 1 7 31 :=
  ⟨⟨15, 0, 0, 0, 0, by decide⟩, by decide⟩

theorem witness_StepRunsTheDecodedInstruction :
    (start 0 [0x2445]).halted = none ∧ (start 0 [0x2445]).pc.toNat % 2 = 0 ∧
      (Instr.add 0 4 2 5).wf (start 0 [0x2445]).cfg.opcodeMap = true ∧
      decodeBytes (start 0 [0x2445]).cfg.opcodeMap
        [Memory.readByte (start 0 [0x2445]).mem (start 0 [0x2445]).pc,
          Memory.readByte (start 0 [0x2445]).mem ((start 0 [0x2445]).pc + 1)] = .ok (.add 0 4 2 5, []) := by decide

theorem witness_OddPcFaultsAtFetch :
    (start 0x0003 [0x1101]).halted = none ∧ (start 0x0003 [0x1101]).pc.toNat % 2 = 1 := by decide

/-- FaultIsPrecise, its first clause: a fault at an even pc and one at an odd pc. -/
theorem witness_FaultIsPrecise :
    (∃ t r, step (start 0 [0xF000]) = .next t ∧ t.halted = some r) ∧
      (∃ t r, step (start 0x0041 [0x1101]) = .next t ∧ t.halted = some r) :=
  ⟨⟨{ start 0 [0xF000] with halted := some ⟨.illegalOpcode, 0, some 0xF000⟩ }, _, next_of_answer (by decide), rfl⟩,
    ⟨{ start 0x0041 [0x1101] with halted := some ⟨.misalignedFetch, 0x0041, none⟩ }, _, next_of_answer (by decide), rfl⟩⟩
/-- FaultIsPrecise, its second clause: a halted state. -/
theorem witness_FaultIsPrecise_halted :
    { start 0 [0xF000] with halted := some ⟨.illegalOpcode, 0, some 0xF000⟩ : State }.halted =
      some ⟨.illegalOpcode, 0, some 0xF000⟩ := rfl

/-- FaultsHaveExactlyTheirCauses: for each fault, a state that meets the hypotheses and the fault's cause. -/
theorem witness_cause_misalignedFetch :
    (start 0x0041 []).halted = none ∧ (start 0x0041 []).cfg.opcodeMap.wf = true ∧ Rule.cause (start 0x0041 []) .misalignedFetch :=
  ⟨by decide, by decide, by simp only [Rule.cause]; decide⟩
theorem witness_cause_illegalOpcode :
    (start 0 [0xF000]).halted = none ∧ (start 0 [0xF000]).cfg.opcodeMap.wf = true ∧ Rule.cause (start 0 [0xF000]) .illegalOpcode :=
  ⟨by decide, by decide, by decide, fun o => by cases o <;> (unfold Rule.opcodeIs; decide)⟩
theorem witness_cause_prefixAfterPrefix :
    (start 0 [0x0001] [] (pendingExt 0x0020)).halted = none ∧
      (start 0 [0x0001] [] (pendingExt 0x0020)).cfg.opcodeMap.wf = true ∧
      Rule.cause (start 0 [0x0001] [] (pendingExt 0x0020)) .prefixAfterPrefix :=
  ⟨by decide, by decide, by simp only [Rule.cause, Rule.opcodeIs]; decide⟩
theorem witness_cause_misalignedLoad :
    (start 0 [0xA225]).halted = none ∧ (start 0 [0xA225]).cfg.opcodeMap.wf = true ∧ Rule.cause (start 0 [0xA225]) .misalignedLoad :=
  ⟨by decide, by decide, by simp only [Rule.cause, Rule.opcodeIs, Rule.operand, Rule.combine]; decide⟩
theorem witness_cause_misalignedStore :
    (start 0 [0x8325]).halted = none ∧ (start 0 [0x8325]).cfg.opcodeMap.wf = true ∧ Rule.cause (start 0 [0x8325]) .misalignedStore :=
  ⟨by decide, by decide, by simp only [Rule.cause, Rule.opcodeIs, Rule.operand, Rule.combine]; decide⟩
theorem witness_cause_reservedCondition :
    (start 0 [0xE220]).halted = none ∧ (start 0 [0xE220]).cfg.opcodeMap.wf = true ∧
      Rule.cause (start 0 [0xE220]) .reservedCondition :=
  ⟨by decide, by decide, by simp only [Rule.cause, Rule.opcodeIs]; decide⟩
theorem witness_cause_reservedShift :
    (start 0 [0x7228] [] Ext.identity [] reservedShr).halted = none ∧
      (start 0 [0x7228] [] Ext.identity [] reservedShr).cfg.opcodeMap.wf = true ∧
      Rule.cause (start 0 [0x7228] [] Ext.identity [] reservedShr) .reservedShift :=
  ⟨by decide, by decide, by simp only [Rule.cause, Rule.opcodeIs]; decide⟩

theorem witness_RunningMachineAnswersANextState : (start 0 [0x2445]).halted = none := by decide

/-- A completed step from a legal state: StepKeepsLegal, ParametersAreConstant, PcUpdateLogic and
ExtensionResetsAfterEveryOtherStep, whose first clause also asks that the word is no Prefix. -/
theorem witness_StepKeepsLegal :
    (start 0 [0x2445] [(2, 0x002A)]).Legal ∧
      ∃ t, step (start 0 [0x2445] [(2, 0x002A)]) = .next t ∧ t.halted = none ∧
        ¬ (∃ sign dest src1 src2, decode (start 0 [0x2445] [(2, 0x002A)]).cfg.opcodeMap
          (Rule.wordAtPc (start 0 [0x2445] [(2, 0x002A)])) = .prefixOp sign dest src1 src2) :=
  ⟨⟨by decide, .inl (by decide), by decide⟩,
    { start 0 [0x2445] [(2, 0x002A), (4, 0x002F)] with pc := 0x0002 },
    next_of_answer (by decide), by decide,
    fun ⟨sign, dest, src1, src2, h⟩ => by
      have hd : decode (start 0 [0x2445] [(2, 0x002A)]).cfg.opcodeMap
          (Rule.wordAtPc (start 0 [0x2445] [(2, 0x002A)])) = .add 0 4 2 5 := by decide
      rw [hd] at h; cases h⟩
/-- A faulting step with an extension pending: the other clauses of PcUpdateLogic and ExtensionResetsAfterEveryOtherStep. -/
theorem witness_faulting_step :
    ∃ t, step (start 0 [0x0001] [] (pendingExt 0x0020)) = .next t ∧ t.halted ≠ none :=
  ⟨{ start 0 [0x0001] [] (pendingExt 0x0020) with halted := some ⟨.prefixAfterPrefix, 0, some 0x0001⟩ },
    next_of_answer (by decide), by decide⟩

theorem witness_ReachableExtensionStates :
    ∃ s, Reachable (State.reset.loadBytes 0 [0xFF, 0x07]) s ∧ s.ext = ⟨0x801F, 0xFFE0⟩ :=
  ⟨_, .step .start (rfl : step (State.reset.loadBytes 0 [0xFF, 0x07]) = .next _), by decide⟩

/-- OnlyTheDestinationRegisterChanges: a register that is no destination, and a faulting instruction's own destination. -/
theorem witness_OnlyTheDestinationRegisterChanges :
    ((∃ t, exec (.add 0 4 2 5) (start 0 []) = .next t) ∧ Rule.destOf (.add 0 4 2 5) ≠ some 3) ∧
      (∃ t, exec (.lw 0 2 1 5) (start 0 []) = .next t ∧ t.halted ≠ (start 0 []).halted) :=
  ⟨⟨⟨_, rfl⟩, by decide⟩, ⟨(start 0 []).raise .misalignedLoad (some 0xA225), next_of_answer (by decide), by decide⟩⟩

/-- OnlyTheStoredBytesChange: the byte just after a stored word, in a canonical memory. -/
theorem witness_OnlyTheStoredBytesChange :
    Memory.wf (start 0 [0x8324] [(1, 0x0100)]).mem = true ∧
      (∃ t, exec (.sw 0 3 1 4) (start 0 [0x8324] [(1, 0x0100)]) = .next t) ∧
      ∀ b n, Rule.storedBytes (start 0 [0x8324] [(1, 0x0100)]) (.sw 0 3 1 4) = some (b, n) →
        (0x0106 : Word) ≠ b ∧ (n = 2 → (0x0106 : Word) ≠ b + 1) := by
  refine ⟨by decide, ⟨_, rfl⟩, fun b n h => ?_⟩
  have hs : Rule.storedBytes (start 0 [0x8324] [(1, 0x0100)]) (.sw 0 3 1 4) = some (0x0104, 2) := by
    simp only [Rule.storedBytes, Rule.operand, Rule.combine]; decide
  rw [hs] at h; cases h; decide

/-- OnlyAnIndirectJalMakesThePcOdd: V-J14 meets both clauses. -/
theorem witness_OnlyAnIndirectJalMakesThePcOdd :
    (∃ t, step (start 0x0010 [0xD803] [(3, 0x0041)]) = .next t ∧ (start 0x0010 [0xD803] [(3, 0x0041)]).pc.toNat % 2 = 0 ∧
      t.pc.toNat % 2 = 1) ∧
    (start 0x0010 [0xD803] [(3, 0x0041)]).halted = none ∧ ((start 0x0010 [0xD803] [(3, 0x0041)]).reg 3).toNat % 2 = 1 :=
  ⟨⟨_, rfl, by decide, by decide⟩, by decide, by decide⟩

/-- PrefixInstallsTheExtension: a state of each clause. -/
theorem witness_PrefixInstallsTheExtension :
    (start 0 [0x001F]).ext = ⟨0xFFFF, 0x0000⟩ ∧ (start 0 [0x001F] [] (pendingExt 0x0000)).ext ≠ ⟨0xFFFF, 0x0000⟩ := by decide

/-- CombinedImmediateBits: a nominal value, with no extension and with one pending. -/
theorem witness_CombinedImmediateBits :
    nomLi 1 7 31 = nomLi 1 7 31 ∧ (start 0 []).ext = ⟨0xFFFF, 0x0000⟩ ∧ (start 0 [] [] (prefixExt 7 7 31)).ext = prefixExt 7 7 31 ∧
      (start 0 [] [] (prefixExt 7 7 31)).combine (nomLi 1 7 31) = 0xFFFF := by decide

/-- RightShiftsByImmediate, ShiftsByRegister, LeftShiftByImmediate: the default SHR_MAP. -/
theorem witness_default_shift_map : (start 0 [0x7224]).cfg.shrMap = ShrMap.default := by decide

theorem witness_ShiftsAndIndirectJalIgnoreTheExtension :
    (start 0 [0x7A33]).halted = none ∧ ∃ t, t.halted = none ∧ exec (.slli 2 1 3) (start 0 [0x7A33]) = .next t :=
  ⟨by decide, { start 0 [0x7A33] with pc := 2 }, by decide, next_of_answer (by decide)⟩
theorem witness_ShiftsAndIndirectJalIgnoreTheExtension_jalr :
    (start 0 [0xD803]).halted = none ∧ ∃ t, t.halted = none ∧ exec (.jalr 0 0 3) (start 0 [0xD803]) = .next t :=
  ⟨by decide, { start 0 [0xD803] [(7, 0x0002)] with pc := 0 }, by decide, next_of_answer (by decide)⟩

theorem witness_MemoryIsLittleEndian :
    Memory.wf [(0x0104, 0xEF), (0x0105, 0xBE)] = true ∧ Memory.readWord [(0x0104, 0xEF), (0x0105, 0xBE)] 0x0104 = 0xBEEF := by
  decide

/-- SwStoresTheWord, SbStoresTheByte: an even and an odd effective address in a canonical memory, the highest one included. -/
theorem witness_store_addresses :
    Memory.wf (start 0 [0x8324] [(1, 0x0100)]).mem = true ∧
      (start 0 [0x8324] [(1, 0x0100)]).reg 1 + Rule.operand (start 0 [0x8324] [(1, 0x0100)]) true 0 4 = 0x0104 ∧
      (start 0 [0x8325] [(1, 0x0100)]).reg 1 + Rule.operand (start 0 [0x8325] [(1, 0x0100)]) true 0 5 = 0x0105 ∧
      (start 0 [0x8B3F]).reg 1 + Rule.operand (start 0 [0x8B3F]) true 1 31 = 0xFFFF := by
  simp only [Rule.operand, Rule.combine]; decide
/-- LwLoadsTheWord, LbSignExtends, LbuZeroExtends: an even and an odd effective address. -/
theorem witness_load_addresses :
    (start 0 [0xA224] [(1, 0x0100)]).reg 1 + Rule.operand (start 0 [0xA224] [(1, 0x0100)]) false 0 4 = 0x0104 ∧
      (start 0 [0xA225] [(1, 0x0100)]).reg 1 + Rule.operand (start 0 [0xA225] [(1, 0x0100)]) false 0 5 = 0x0105 := by
  simp only [Rule.operand, Rule.combine]; decide

/-- LoadReturnsTheStoredValue: a completed Sw, then an address of each clause. -/
theorem witness_LoadReturnsTheStoredValue :
    Memory.wf (start 0 [] [(1, 0x0100), (3, 0xBEEF)]).mem = true ∧
      ∃ t, t.halted = none ∧ exec (.sw 0 3 1 4) (start 0 [] [(1, 0x0100), (3, 0xBEEF)]) = .next t ∧
        t.loadAddress 0 1 4 = (start 0 [] [(1, 0x0100), (3, 0xBEEF)]).storeAddress 0 1 4 ∧
        t.loadAddress 0 1 5 = (start 0 [] [(1, 0x0100), (3, 0xBEEF)]).storeAddress 0 1 4 + 1 :=
  ⟨by decide, { start 0x0002 [] [(1, 0x0100), (3, 0xBEEF)] Ext.identity [(0x0104, 0xEF), (0x0105, 0xBE)] with pc := 2 },
    by decide, next_of_answer (by decide), by decide, by decide⟩

/-- NextFetchSeesTheStore: `sw r2, 0(r1)` at 0x0006 with x[1] = 8, program P5. -/
theorem witness_NextFetchSeesTheStore :
    Memory.wf (start 6 [0x8220] [(1, 8), (2, 0x1305)]).mem = true ∧ (start 6 [0x8220] [(1, 8), (2, 0x1305)]).halted = none ∧
      (start 6 [0x8220] [(1, 8), (2, 0x1305)]).pc.toNat % 2 = 0 ∧
      (start 6 [0x8220] [(1, 8), (2, 0x1305)]).storeAddress 0 1 0 = (start 6 [0x8220] [(1, 8), (2, 0x1305)]).pc + 2 := by decide

/-- SkipcSkipsOnItsCondition: operands that take bne, blt and bgeu and do not take beq, bge and bltu, and equal operands, which do
the reverse for beq, bne, blt and bge; its hypothesis on the instruction is met by choosing it. -/
theorem witness_SkipcSkipsOnItsCondition :
    (∃ (l r : Word) (i : Instr) (code : Nat) (taken : Prop),
      l = (start 0 [] [(1, 0x8000), (2, 0x7FFF)]).reg 1 ∧ r = Rule.operand (start 0 [] [(1, 0x8000), (2, 0x7FFF)]) true 1 2 ∧
      (i = .skipcBlt 1 1 2 ∧ code = 4 ∧ taken = (l.toInt < r.toInt)) ∧ taken) ∧
    ((0x8000 : Word) ≠ 0x7FFF ∧ (0x8000 : Word).toInt < (0x7FFF : Word).toInt ∧ (0x8000 : Word).toNat ≥ (0x7FFF : Word).toNat) ∧
    (start 0 [] [(1, 5), (2, 5)]).reg 1 = Rule.operand (start 0 [] [(1, 5), (2, 5)]) true 1 2 ∧
    (start 0 [] [(1, 0), (2, 0xFFFF)]).reg 1 < Rule.operand (start 0 [] [(1, 0), (2, 0xFFFF)]) true 1 2 :=
  ⟨⟨0x8000, 0x7FFF, .skipcBlt 1 1 2, 4, _, by decide, by simp only [Rule.operand, Rule.combine]; decide, ⟨rfl, rfl, rfl⟩,
    by decide⟩, by decide, by simp only [Rule.operand, Rule.combine]; decide⟩

/-- ReservedConditionsFollowTheParameter: a state of each clause. -/
theorem witness_ReservedConditionsFollowTheParameter :
    (start 0 [0xE220]).cfg.reservedCond = .fault ∧ (start 0 [0xE320] [] Ext.identity [] evalFalse).cfg.reservedCond = .evalFalse := by
  decide

theorem witness_JalToItselfIsAFixedPoint :
    (start 0x0020 [0xD000]).halted = none ∧ (start 0x0020 [0xD000]).pc.toNat % 2 = 0 ∧
      (start 0x0020 [0xD000]).ext = ⟨0xFFFF, 0x0000⟩ ∧ (start 0x0020 [0xD000]).cfg.jalRelBase = .a ∧
      decode (start 0x0020 [0xD000]).cfg.opcodeMap (Rule.wordAtPc (start 0x0020 [0xD000])) = .jal 0 0 0 := by decide

theorem witness_TwoPrefixesInARowFault :
    (start 2 [0x0000, 0x07FF]).halted = none ∧ (start 2 [0x0000, 0x07FF]).pc.toNat % 2 = 0 ∧
      (start 2 [0x0000, 0x07FF]).ext = ⟨0xFFFF, 0x0000⟩ ∧
      decode (start 2 [0x0000, 0x07FF]).cfg.opcodeMap (Memory.readWord (start 2 [0x0000, 0x07FF]).mem 2) = .prefixOp 0 0 0 0 ∧
      decode (start 2 [0x0000, 0x07FF]).cfg.opcodeMap (Memory.readWord (start 2 [0x0000, 0x07FF]).mem (2 + 2)) =
        .prefixOp 0 7 7 31 := by decide

theorem witness_PrefixAtTheTopExtendsAddressZero :
    (start 0xFFFE [0x001F]).halted = none ∧ (start 0xFFFE [0x001F]).pc = 0xFFFE ∧ (start 0xFFFE [0x001F]).ext = ⟨0xFFFF, 0x0000⟩ ∧
      decode (start 0xFFFE [0x001F]).cfg.opcodeMap (Rule.wordAtPc (start 0xFFFE [0x001F])) = .prefixOp 0 0 0 31 := by decide

/-- SkipOverAPrefixRunsUnprefixed: the taken beq of program P4, and a taken blt, both before the Prefix 0x0001. -/
theorem witness_SkipOverAPrefixRunsUnprefixed :
    ∃ (s : State) (l r : Word) (i : Instr) (taken : Prop), s.halted = none ∧ s.pc.toNat % 2 = 0 ∧ l = s.reg 1 ∧
      r = Rule.operand s true 0 1 ∧ (i = .skipcBeq 0 1 1 ∧ taken = (l = r)) ∧ taken ∧
      decode s.cfg.opcodeMap (Rule.wordAtPc s) = i ∧ Rule.isPrefix s.cfg.opcodeMap (Memory.readWord s.mem (s.pc + 2)) :=
  ⟨start 2 [0xE021, 0x0001, 0x2202] [(1, 1)], 1, 1, _, _, by decide, by decide, by decide,
    by simp only [Rule.operand, Rule.combine]; decide, ⟨rfl, rfl⟩, rfl, by decide, by unfold Rule.isPrefix; decide⟩
theorem witness_SkipOverAPrefixRunsUnprefixed_blt :
    ∃ (s : State) (l r : Word) (i : Instr) (taken : Prop), s.halted = none ∧ s.pc.toNat % 2 = 0 ∧ l = s.reg 1 ∧
      r = Rule.operand s true 0 0 ∧ (i = .skipcBlt 0 1 0 ∧ taken = (l.toInt < r.toInt)) ∧ taken ∧
      decode s.cfg.opcodeMap (Rule.wordAtPc s) = i ∧ Rule.isPrefix s.cfg.opcodeMap (Memory.readWord s.mem (s.pc + 2)) :=
  ⟨start 2 [0xE420, 0x0001, 0x2202] [(1, 0xFFFF)], 0xFFFF, 0, _, _, by decide, by decide, by decide,
    by simp only [Rule.operand, Rule.combine]; decide, ⟨rfl, rfl⟩, by decide, by decide, by unfold Rule.isPrefix; decide⟩

/-- EmittedLiLoadsEveryValue and EmittedSixBitOperandsAreTheImmediate: the ends of the range, the ends of the native ranges of R91
(V-L5, V-A4 to V-A6), and an opcode of each kind of operand. -/
theorem witness_emitted_values :
    (-32768 : Int) ≤ -32768 ∧ (32767 : Int) ≤ 32767 ∧ (start 0 []).cfg.opcodeMap.wf = true ∧
      (start 0 []).ext = ⟨0xFFFF, 0x0000⟩ ∧ Rule.selects (start 0 []) .xor = true ∧
      Rule.selects (start 0 []) .sw = true ∧ Rule.selects (start 0 []) .lbu = false ∧
      emitLi Params.default false 6 256 = .ok [0x0008, 0x1600] ∧ emitLi Params.default false 6 255 = .ok [0x16FF] ∧
      emitImm6 Params.default false .add 4 2 (-24) = .ok [0x2C48] ∧
      emitImm6 Params.default false .add 4 2 (-25) = .ok [0x07FF, 0x2C47] ∧
      emitImm6 Params.default false .lw 4 2 (-32) = .ok [0xAC40] := by decide

/-- EmittedJalReachesItsTarget: V-J7's two words, assembled at 0x0004, V-J3's one word, and an odd target. -/
theorem witness_EmittedJalReachesItsTarget :
    (start 4 []).pc.toNat % 2 = 0 ∧ (start 4 []).cfg.opcodeMap.wf = true ∧ (start 4 []).ext = ⟨0xFFFF, 0x0000⟩ ∧
      (0x4000 : Word).toNat % 2 = 0 ∧ (0x4001 : Word).toNat % 2 = 1 ∧
      emitJal (start 4 []).cfg false (start 4 []).pc 0x4000 = .ok [0x00FF, 0xD7FD] ∧
      emitJal Params.default false 0x0002 0x0010 = .ok [0xD007] := by decide
/-- Log entry 18, at both of its boundaries: offsets 2048 and -32 from the place, 2047 and -33 from the address after the Prefix. -/
theorem test_emitJal_between_the_ranges :
    emitJal Params.default false 0x0000 0x1000 = .ok [0x003F, 0xD7FF] ∧
      emitJal Params.default false 0x1000 0x0FC0 = .ok [0x07FE, 0xD7DF] := by decide

/-- Log entry 22: at an odd place the offset -1/2 is rounded down to -1, and there is no error. -/
theorem test_emitJal_at_an_odd_place : emitJal Params.default false 0x0001 0x0000 = .ok [0xDFFF] := by decide

/-- EmittedShiftsRunTheirVariant: V-S1, V-S8 and V-S11 under the default SHR_MAP, and a map that reserves half of srli. -/
theorem witness_EmittedShiftsRunTheirVariant :
    (start 0 []).cfg.opcodeMap.wf = true ∧ (start 0 []).cfg.shrMap = ShrMap.default ∧
      emitShiftImm Params.default .srli 2 1 4 = .ok [0x7224] ∧ emitShiftImm Params.default .slli 2 1 7 = .ok [0x7A37] ∧
      emitShiftReg Params.default .sra 2 1 3 = .ok [0x7A2B] ∧
      emitShiftImm reservedShr .srli 2 1 8 = .error .encodingRange ∧ emitShiftImm reservedShr .srli 2 1 7 = .ok [0x7227] := by
  decide

/-- EncoderRefusesPrefixAfterPrefix: operands of each clause, at the ends of their ranges (L1-1's raw Prefix), and a native
immediate, which is emitted while an extension is pending (V-P7). -/
theorem witness_EncoderRefusesPrefixAfterPrefix :
    (7 < 8 ∧ 31 < 32) ∧ emitPrefix OpcodeMap.default false 7 7 31 = .ok [0x07FF] ∧
      emitPrefix OpcodeMap.default true 7 7 31 = .error .prefixAfterPrefix ∧
      emitLi Params.default true 6 256 = .error .prefixAfterPrefix ∧ emitLi Params.default true 6 1 = .ok [0x1601] ∧
      Rule.selects (start 0 []) .xor = true ∧ (¬ Rule.native6 true (-25) ∧ ¬ Rule.native6 true 32) ∧
      emitImm6 Params.default true .xor 4 2 (-25) = .error .prefixAfterPrefix ∧
      ¬ Rule.nativeJal (Rule.jalOffset .a 0x0000 0x1000) ∧
      emitJal Params.default true 0x0000 0x1000 = .error .prefixAfterPrefix := by
  unfold Rule.native6 Rule.nativeJal; decide

/-- Log entry 20: `sw r3, r2(r1)` is emitted under STORE_OFFSET_ALIAS = false too, where its offset is the immediate -30 (R161), and
`add r4, r2, r2` after a Prefix, where its operand is an immediate (V-P9). -/
theorem test_emitSelect_without_the_form :
    emitSelect noStoreAlias .sw 3 1 2 = 0x8B22 ∧
      (start 0 [] [(1, 0x0100), (2, 0x0010)] Ext.identity [] noStoreAlias).storeAddress 1 1 2 = 0x00E2 ∧
      emitSelect Params.default .add 4 2 2 = 0x2C42 := by decide
/-- Log entry 21: the order of the Encoder's two errors. -/
theorem test_encoder_error_order :
    emitPrefix OpcodeMap.default true 8 0 0 = .error .prefixAfterPrefix ∧
      emitLi Params.default true 6 32768 = .error .encodingRange := by decide

/-- EncoderNeverEmitsTwoPrefixesInARow: a call that emits a Prefix, and one after a pending Prefix. -/
theorem witness_EncoderNeverEmitsTwoPrefixesInARow :
    (start 0 []).cfg.opcodeMap.wf = true ∧ (∃ rd v, emitLi (start 0 []).cfg false rd v = .ok [0x0008, 0x1600]) ∧
      (∃ o sign dest src1 src2, emitRaw (start 0 []).cfg.opcodeMap true o sign dest src1 src2 = .ok [0x16FF]) :=
  ⟨by decide, ⟨6, 256, by decide⟩, ⟨.li, 0, 6, 7, 31, by decide⟩⟩

/-- EncoderRejectsOutOfRangeOperands: the first value outside each range. -/
theorem witness_EncoderRejectsOutOfRangeOperands :
    ((-32769 : Int) < -32768 ∧ (32767 : Int) < 32768) ∧ (0x4001 : Word).toNat % 2 = 1 ∧ 16 ≤ 16 ∧ 8 ≤ 8 ∧
      emitLi Params.default false 6 32768 = .error .encodingRange ∧
      emitShiftImm Params.default .slli 2 1 8 = .error .encodingRange := by decide

end Sys2Proof.Tests
end

namespace Sys2Proof.Machine
open Sys2Proof

/-! The step of a running machine, by the parity of the pc (R9, R43). -/

theorem isOdd_eq_decide (a : Word) : isOdd a = decide (a.toNat % 2 = 1) := by
  simp [isOdd, ← BitVec.toNat_inj, BitVec.extractLsb'_toNat]

/-- At an odd pc nothing is decoded: the step is the fetch fault (R223). -/
theorem step_of_odd_pc {s : State} (hrun : s.halted = none) (hodd : s.pc.toNat % 2 = 1) :
    step s = .next (s.raise .misalignedFetch none) := by
  simp [step, hrun, State.fetch, isOdd_eq_decide, hodd, misalignedFetchStep]

/-- At an even pc the step is the meaning of the instruction the fetched word decodes to (R9). -/
theorem step_of_even_pc {s : State} (hrun : s.halted = none) (heven : s.pc.toNat % 2 = 0) :
    step s = exec (decode s.cfg.opcodeMap s.fetchWord) s := by
  simp [step, hrun, State.fetch, isOdd_eq_decide, heven]

/-- No instruction is refused: a fault is a next state too (R221). -/
theorem exec_answers_next (i : Instr) (s : State) : ∃ t, exec i s = .next t := by
  rcases exec_cases i s with ⟨_, hraise⟩ | ⟨_, hcommit, _⟩
  · exact ⟨_, hraise⟩
  · exact ⟨_, hcommit⟩

/-- Two bytes, low byte first, hold exactly one instruction word (R41, R63). -/
theorem decodeBytes_pair (m : OpcodeMap) (lo hi : Byte) :
    decodeBytes m [lo, hi] = .ok (decode m (hi ++ lo), []) := rfl

/-! The operations that build a next state keep `State.Legal`. -/

theorem Ext.identity_legal : Ext.identity.legal := .inl rfl

/-- A Prefix installs the second kind of R26: its bits are a field shifted left by 5 (R101). -/
theorem prefixExt_legal (dest src1 : BitVec 3) (src2 : BitVec 5) : (prefixExt dest src1 src2).legal := by
  refine .inr ⟨prefixExt_mask dest src1 src2, ?_⟩
  have hshift : (prefixExt dest src1 src2).bits.toNat = (dest ++ src1 ++ src2).toNat * 2 ^ 5 := by
    rw [prefixExt_bits, BitVec.toNat_append, Nat.shiftLeft_eq]
    exact Nat.or_zero _
  omega

theorem extAfter_legal (i : Instr) : (extAfter i).legal := by
  cases i with
  | prefixOp _ dest src1 src2 => exact prefixExt_legal dest src1 src2
  | _ => exact Ext.identity_legal

theorem State.Legal.raise {s : State} (hs : s.Legal) (k : FaultKind) (w : Option Word) : (s.raise k w).Legal :=
  ⟨hs.mem, hs.ext, hs.opcodeMap⟩

theorem State.Legal.commit {s : State} (hs : s.Legal) {e : Effects} (he : e.ext.legal) : (s.commit e).Legal :=
  ⟨Memory.apply_wf s.mem hs.mem e.memWrite, he, hs.opcodeMap⟩

theorem State.Legal.exec {s t : State} (hs : s.Legal) {i : Instr} (h : exec i s = .next t) : t.Legal := by
  rcases exec_cases i s with ⟨k, hraise⟩ | ⟨e, hcommit, hext, _⟩
  · obtain rfl : s.raise k _ = t := Host.Outcome.next.inj (hraise.symm.trans h)
    exact hs.raise k _
  · obtain rfl : s.commit e = t := Host.Outcome.next.inj (hcommit.symm.trans h)
    exact hs.commit (hext ▸ extAfter_legal i)

end Sys2Proof.Machine

namespace Sys2Proof.Proofs
open Sys2Proof Sys2Proof.Machine

/-- Settles O8: the two bytes are the fetched word, so the instruction they decode to is the one the step runs. The step asks
nothing of well-formedness. -/
theorem stepRunsTheDecodedInstruction : Obligations.StepRunsTheDecodedInstruction := by
  intro s i hrun heven _ hbytes
  have hdecode : decode s.cfg.opcodeMap s.fetchWord = i := by
    rw [decodeBytes_pair] at hbytes
    exact congrArg Prod.fst (Except.ok.inj hbytes)
  rw [step_of_even_pc hrun heven, hdecode]

/-- Settles O12: at an odd pc the next state is the fetch fault's, at an even pc the instruction's. -/
theorem runningMachineAnswersANextState : Obligations.RunningMachineAnswersANextState := by
  intro s hrun
  rcases Nat.mod_two_eq_zero_or_one s.pc.toNat with heven | hodd
  · rw [step_of_even_pc hrun heven]
    exact exec_answers_next _ s
  · exact ⟨_, step_of_odd_pc hrun hodd⟩

/-- Settles O13: a step raises the fetch fault or runs an instruction, and both keep the invariant. -/
theorem stepKeepsLegal : Obligations.StepKeepsLegal := by
  intro s t hs hstep
  obtain ⟨_, ⟨_, rfl⟩ | ⟨_, hexec⟩⟩ := step_cases hstep
  · exact hs.raise _ _
  · exact hs.exec hexec

end Sys2Proof.Proofs

namespace Sys2Proof.Machine
open Sys2Proof

/-! What the reset state reads as (R33). -/

@[simp] theorem State.reset_reg (r : Reg) : State.reset.reg r = 0x0000 :=
  Vector.getElem_replicate r.isLt

/-- The reset memory lists no byte, so each reads as an unlisted one (R29). -/
@[simp] theorem State.reset_readByte (a : Word) : Memory.readByte State.reset.mem a = 0x00 :=
  Memory.lookup_nil a.toNat

end Sys2Proof.Machine

namespace Sys2Proof.Proofs
open Sys2Proof Sys2Proof.Machine

/-- Settles O14: empty memory is canonical, the extension state is R26's identity pair, the default OPCODE_MAP is injective. -/
theorem resetIsLegal : Obligations.ResetIsLegal where
  mem := State.reset_mem_wf
  ext := Ext.identity_legal
  opcodeMap := OpcodeMap.default_wf

/-- Settles O15, by a read lemma for the registers and one for the memory; the other fields are written out in `State.reset`. -/
theorem resetValues : Obligations.ResetValues :=
  ⟨State.reset_reg, rfl, Ext.identity_mask, Ext.identity_bits, State.reset_readByte, rfl⟩

end Sys2Proof.Proofs

namespace Sys2Proof.Machine
open Sys2Proof

/-! A word as two bytes (R41), as numbers. -/

/-- The two bytes of a word have neighbouring addresses, which differ at the top of memory too (R41). -/
theorem word_ne_add_one (a : Word) : a ≠ a + 1 := by
  bv_omega

/-- The next instruction has the parity of this one, across the wrap at the top of memory too (R190). -/
theorem toNat_add_two_mod_two (a : Word) : (a + 2).toNat % 2 = a.toNat % 2 := by
  bv_omega

theorem toNat_high_append_low (hi lo : Byte) : (hi ++ lo : Word).toNat = lo.toNat + 256 * hi.toNat := by
  have happend : (hi ++ lo : Word).toNat = hi.toNat * 256 + lo.toNat := by
    rw [BitVec.toNat_append, ← Nat.shiftLeft_add_eq_or_of_lt lo.isLt, Nat.shiftLeft_eq]
  omega

theorem toNat_lowByte (v : Word) : (v.extractLsb' 0 8).toNat = v.toNat % 256 := by
  simp [BitVec.extractLsb'_toNat]

theorem toNat_highByte (v : Word) : (v.extractLsb' 8 8).toNat = v.toNat / 256 := by
  have hlt : v.toNat / 256 < 256 := by omega
  rw [BitVec.extractLsb'_toNat, Nat.shiftRight_eq_div_pow, Nat.mod_eq_of_lt hlt]

/-! What memory reads as after each width of store (R41). -/

theorem Memory.toNat_readWord (m : Memory) (a : Word) :
    (Memory.readWord m a).toNat = (Memory.readByte m a).toNat + 256 * (Memory.readByte m (a + 1)).toNat :=
  toNat_high_append_low _ _

theorem Memory.readByte_writeWord_low {m : Memory} (hm : Memory.wf m = true) (a v : Word) :
    Memory.readByte (Memory.writeWord m a v) a = v.extractLsb' 0 8 := by
  rw [Memory.readByte_writeWord m hm, if_neg (word_ne_add_one a), if_pos rfl]

theorem Memory.readByte_writeWord_high {m : Memory} (hm : Memory.wf m = true) (a v : Word) :
    Memory.readByte (Memory.writeWord m a v) (a + 1) = v.extractLsb' 8 8 := by
  rw [Memory.readByte_writeWord m hm, if_pos rfl]

theorem Memory.readByte_writeWord_other {m : Memory} (hm : Memory.wf m = true) {a b : Word} (v : Word)
    (hlow : b ≠ a) (hhigh : b ≠ a + 1) : Memory.readByte (Memory.writeWord m a v) b = Memory.readByte m b := by
  rw [Memory.readByte_writeWord m hm, if_neg hhigh, if_neg hlow]

/-! The meaning of each load and store, at each parity of its effective address (R162, R164, R166). -/

theorem exec_sw_eq (sign : BitVec 1) (data base : Reg) (src2 : BitVec 5) (s : State) :
    exec (.sw sign data base src2) s = execSw sign data base src2 s := rfl

theorem exec_lw_eq (sign : BitVec 1) (dest base : Reg) (src2 : BitVec 5) (s : State) :
    exec (.lw sign dest base src2) s = execLw sign dest base src2 s := rfl

theorem exec_lbu_eq (sign : BitVec 1) (dest base : Reg) (src2 : BitVec 5) (s : State) :
    exec (.lbu sign dest base src2) s = execLbu sign dest base src2 s := rfl

theorem exec_sw_of_even {sign : BitVec 1} {base : Reg} {src2 : BitVec 5} {s : State}
    (heven : (s.storeAddress sign base src2).toNat % 2 = 0) (data : Reg) :
    exec (.sw sign data base src2) s =
      .next (s.commit { memWrite := some (.word (s.storeAddress sign base src2) (s.reg data)) }) := by
  simp [exec_sw_eq, execSw, isOdd_eq_decide, heven]

theorem exec_sw_of_odd {sign : BitVec 1} {base : Reg} {src2 : BitVec 5} {s : State}
    (hodd : (s.storeAddress sign base src2).toNat % 2 = 1) (data : Reg) :
    exec (.sw sign data base src2) s =
      .next (s.raise .misalignedStore (some (encode s.cfg.opcodeMap (.sw sign data base src2)))) := by
  simp [exec_sw_eq, execSw, isOdd_eq_decide, hodd, raiseBy]

theorem exec_lw_of_even {sign : BitVec 1} {base : Reg} {src2 : BitVec 5} {s : State}
    (heven : (s.loadAddress sign base src2).toNat % 2 = 0) (dest : Reg) :
    exec (.lw sign dest base src2) s =
      .next (s.commit { regWrite := some (dest, Memory.readWord s.mem (s.loadAddress sign base src2)) }) := by
  simp [exec_lw_eq, execLw, isOdd_eq_decide, heven]

/-- An Sw that completes had an even effective address and committed its store; at an odd one it would have halted (R162). -/
theorem exec_sw_completed {sign : BitVec 1} {data base : Reg} {src2 : BitVec 5} {s t : State}
    (hexec : exec (.sw sign data base src2) s = .next t) (hrun : t.halted = none) :
    (s.storeAddress sign base src2).toNat % 2 = 0 ∧
      t = s.commit { memWrite := some (.word (s.storeAddress sign base src2) (s.reg data)) } := by
  rcases Nat.mod_two_eq_zero_or_one (s.storeAddress sign base src2).toNat with heven | hodd
  · rw [exec_sw_of_even heven] at hexec
    exact ⟨heven, (Host.Outcome.next.inj hexec).symm⟩
  · rw [exec_sw_of_odd hodd] at hexec
    obtain rfl := Host.Outcome.next.inj hexec
    cases hrun

/-- Lw leaves the word at its even effective address in its register, and does not halt (R164). -/
theorem exec_lw_loads {sign : BitVec 1} {base : Reg} {src2 : BitVec 5} {s : State}
    (heven : (s.loadAddress sign base src2).toNat % 2 = 0) (dest : Reg) :
    ∃ u, exec (.lw sign dest base src2) s = .next u ∧
      u.reg dest = Memory.readWord s.mem (s.loadAddress sign base src2) ∧ u.halted = s.halted :=
  ⟨_, exec_lw_of_even heven dest, State.commit_reg_dest _ _ _ _ rfl, rfl⟩

/-- Lbu leaves the byte at its effective address, as a number, in its register (R166). -/
theorem exec_lbu_loads (sign : BitVec 1) (dest base : Reg) (src2 : BitVec 5) (s : State) :
    ∃ u, exec (.lbu sign dest base src2) s = .next u ∧
      (u.reg dest).toNat = (Memory.readByte s.mem (s.loadAddress sign base src2)).toNat := by
  refine ⟨_, exec_lbu_eq sign dest base src2 s, ?_⟩
  rw [State.commit_reg_dest _ _ _ _ rfl, BitVec.toNat_setWidth_of_le (by decide)]

/-- A word stored where the next instruction stands is the word its fetch reads (R52). -/
theorem State.fetchWord_commit_store {s : State} (hmem : Memory.wf s.mem = true) (v : Word) :
    (s.commit { memWrite := some (.word (s.pc + 2) v) }).fetchWord = v :=
  Memory.readWord_writeWord s.mem hmem (s.pc + 2) v

end Sys2Proof.Machine

namespace Sys2Proof.Proofs
open Sys2Proof Sys2Proof.Machine

/-- Settles O9: the fetch fault is all of the step. -/
theorem oddPcFaultsAtFetch : Obligations.OddPcFaultsAtFetch :=
  fun _ hrun hodd => step_of_odd_pc hrun hodd

/-- Settles O35: the byte store by the read-after-write lemma, the word store by the byte it is read at. -/
theorem memoryIsLittleEndian : Obligations.MemoryIsLittleEndian := by
  intro m a v hm
  refine ⟨Memory.toNat_readWord m a, fun b => ?_, fun b => ?_, fun _ => rfl⟩
  · rw [Memory.apply_byte, Memory.readByte_writeByte m hm]
    split_ifs
    · exact toNat_lowByte v
    · rfl
  · rw [Memory.apply_word]
    split_ifs with hlow hhigh
    · rw [hlow, Memory.readByte_writeWord_low hm, toNat_lowByte]
    · rw [hhigh, Memory.readByte_writeWord_high hm, toNat_highByte]
    · rw [Memory.readByte_writeWord_other hm v hlow hhigh]

/-- Settles O41: the completed Sw leaves memory with its word written, and each load answers what that memory reads as. -/
theorem loadReturnsTheStoredValue : Obligations.LoadReturnsTheStoredValue := by
  intro sign sign' data base dest base' src2 src2' s t hmem hrun hsw
  obtain ⟨heven, ht⟩ := exec_sw_completed hsw hrun
  have htmem : t.mem = Memory.writeWord s.mem (s.storeAddress sign base src2) (s.reg data) := by rw [ht]; rfl
  obtain ⟨u, hlbu, hbyte⟩ := exec_lbu_loads sign' dest base' src2' t
  refine ⟨fun hsame => ⟨?_, u, hlbu, ?_⟩, fun hnext => ⟨u, hlbu, ?_⟩⟩
  · obtain ⟨u, hlw, hword, hhalted⟩ := exec_lw_loads (hsame ▸ heven) dest
    refine ⟨u, hlw, ?_, hhalted.trans hrun⟩
    rw [hword, hsame, htmem, Memory.readWord_writeWord s.mem hmem]
  · rw [hbyte, hsame, htmem, Memory.readByte_writeWord_low hmem, toNat_lowByte]
  · rw [hbyte, hnext, htmem, Memory.readByte_writeWord_high hmem, toNat_highByte]

/-- Settles O42: the store is at the next pc, so it is even and completes, and the next fetch reads the stored word there. -/
theorem nextFetchSeesTheStore : Obligations.NextFetchSeesTheStore := by
  intro sign data base src2 s hmem hrun hpc haddr
  have heven : (s.pc + 2).toNat % 2 = 0 := (toNat_add_two_mod_two s.pc).trans hpc
  have hsw := exec_sw_of_even (haddr ▸ heven) data
  rw [haddr] at hsw
  have hfetch := State.fetchWord_commit_store hmem (s.reg data)
  refine ⟨_, hsw, rfl, hfetch, ?_⟩
  rw [step_of_even_pc, hfetch, State.commit_cfg]
  · exact hrun
  · exact heven

end Sys2Proof.Proofs

namespace Sys2Proof

/-! The fields of a word, as numbers (R60, R61). -/

theorem toNat_append_eq_add {v w : Nat} (a : BitVec v) (b : BitVec w) : (a ++ b).toNat = a.toNat * 2 ^ w + b.toNat := by
  rw [BitVec.toNat_append, ← Nat.shiftLeft_add_eq_or_of_lt b.isLt, Nat.shiftLeft_eq]

theorem toNat_extractLsb'_eq {w : Nat} (x : BitVec w) (start len : Nat) :
    (x.extractLsb' start len).toNat = x.toNat / 2 ^ start % 2 ^ len := by
  rw [BitVec.extractLsb'_toNat, Nat.shiftRight_eq_div_pow]

theorem toNat_pack (f : Fields) :
    (pack f).toNat = Rule.word f.opcode f.sign.toNat f.dest.toNat f.src1.toNat f.src2.toNat := by
  simp only [pack, Rule.word, toNat_append_eq_add]
  omega

/-! An src2 field read in two parts, as Shr and Jal read it (R65, R141, R181). -/

theorem src2_bit_append_low4 (b : BitVec 5) : b.extractLsb' 4 1 ++ b.extractLsb' 0 4 = b := by
  simpa using BitVec.extractLsb'_append_extractLsb'_eq_extractLsb' (x := b) (start₁ := 0) (len₁ := 4) (len₂ := 1) rfl

theorem src2_sel_append_low3 (b : BitVec 5) : b.extractLsb' 3 2 ++ b.extractLsb' 0 3 = b := by
  simpa using BitVec.extractLsb'_append_extractLsb'_eq_extractLsb' (x := b) (start₁ := 0) (len₁ := 3) (len₂ := 2) rfl

/-- src2[4] is the high bit of src2[4:3]. -/
theorem src2_bit_of_sel_append (sel : BitVec 2) (low : BitVec 3) : (sel ++ low).extractLsb' 4 1 = sel.extractLsb' 1 1 :=
  BitVec.extractLsb'_append_eq_of_le (by decide)

theorem bit_eq_one_of_ne_zero {b : BitVec 1} (h : b ≠ 0#1) : b = 1#1 :=
  (BitVec.eq_zero_or_eq_one b).resolve_left h

theorem sel_eq_three : ∀ {sel : BitVec 2}, sel ≠ 0#2 → sel ≠ 1#2 → sel ≠ 2#2 → sel = 3#2 := by
  decide

/-- A selector whose high bit is set is 2 or 3. -/
theorem sel_eq_three_of_bit : ∀ {sel : BitVec 2}, sel.extractLsb' 1 1 ≠ 0#1 → sel ≠ 2#2 → sel = 3#2 := by
  decide

theorem src2_bit_eq_sel_bit (b : BitVec 5) : b.extractLsb' 4 1 = (b.extractLsb' 3 2).extractLsb' 1 1 := by
  conv_lhs => rw [← src2_sel_append_low3 b]
  exact src2_bit_of_sel_append _ _

theorem condCode_eq_seven {d : BitVec 3} (h0 : d ≠ 0#3) (h1 : d ≠ 1#3) (h2 : d ≠ 2#3) (h3 : d ≠ 3#3) (h4 : d ≠ 4#3)
    (h5 : d ≠ 5#3) (h6 : d ≠ 6#3) : d = 7#3 := by
  bv_omega

/-! The decoder by opcode name (R61, R64, R66). -/

theorem decode_pack (m : OpcodeMap) (f : Fields) : decode m (pack f) = decodeFields m f := by
  rw [decode, unpack_pack]

theorem OpcodeMap.nameOf_eq_none {m : OpcodeMap} {v : BitVec 4} : m.nameOf v = none ↔ ∀ o, m.value o ≠ v := by
  simp [OpcodeMap.nameOf, Opcode.mem_all]

/-- A word decodes by a name with its opcode value, or to `unassigned` where there is none. -/
theorem decodeFields_cases (m : OpcodeMap) (f : Fields) :
    (∃ o, m.value o = f.opcode ∧ decodeFields m f = decodeNamed f o) ∨
      ((∀ o, m.value o ≠ f.opcode) ∧ decodeFields m f = .unassigned f.opcode f.sign f.dest f.src1 f.src2) := by
  cases hname : m.nameOf f.opcode with
  | some o => exact .inl ⟨o, OpcodeMap.value_of_nameOf hname, by rw [decodeFields, hname]⟩
  | none => exact .inr ⟨OpcodeMap.nameOf_eq_none.1 hname, by rw [decodeFields, hname]⟩

theorem decodeFields_of_value {m : OpcodeMap} (hm : m.wf = true) {f : Fields} {o : Opcode} (ho : f.opcode = m.value o) :
    decodeFields m f = decodeNamed f o := by
  rw [decodeFields, ho, OpcodeMap.nameOf_value hm]

theorem decodeFields_of_unnamed {m : OpcodeMap} {f : Fields} (h : ∀ o, m.value o ≠ f.opcode) :
    decodeFields m f = .unassigned f.opcode f.sign f.dest f.src1 f.src2 := by
  rw [decodeFields, OpcodeMap.nameOf_eq_none.2 h]

/-- Decoding the word of a name's fields under an injective OPCODE_MAP (R5, R64). -/
theorem decode_pack_of_name {m : OpcodeMap} (hm : m.wf = true) (o : Opcode) (sign : BitVec 1) (dest src1 : BitVec 3)
    (src2 : BitVec 5) :
    decode m (pack ⟨m.value o, sign, dest, src1, src2⟩) = decodeNamed ⟨m.value o, sign, dest, src1, src2⟩ o := by
  rw [decode_pack, decodeFields_of_value hm rfl]

/-! Decoding keeps every bit: the fields of the decoded instruction are the fields it was decoded from. -/

theorem decodeShr_fields (m : OpcodeMap) (f : Fields) : (decodeShr f).fields m = { f with opcode := m.value .shr } := by
  obtain ⟨op, sign, dest, src1, src2⟩ := f
  have hbit := src2_bit_append_low4 src2
  have hsel := src2_sel_append_low3 src2
  simp only [decodeShr]
  split_ifs with hsign h4 h0 h1 h2
  · simp_all [Instr.fields]
  · rw [bit_eq_one_of_ne_zero h4] at hbit
    simp_all [Instr.fields]
  · simp_all [Instr.fields, bit_eq_one_of_ne_zero hsign]
  · simp_all [Instr.fields, bit_eq_one_of_ne_zero hsign]
  · simp_all [Instr.fields, bit_eq_one_of_ne_zero hsign]
  · rw [sel_eq_three h0 h1 h2] at hsel
    simp_all [Instr.fields, bit_eq_one_of_ne_zero hsign]

theorem decodeJal_fields (m : OpcodeMap) (f : Fields) : (decodeJal f).fields m = { f with opcode := m.value .jal } := by
  obtain ⟨op, sign, dest, src1, src2⟩ := f
  have hbit := src2_bit_append_low4 src2
  have hsel := src2_sel_append_low3 src2
  simp only [decodeJal]
  split_ifs with hsign h4 h2
  · simp [Instr.fields, hsign]
  · simp_all [Instr.fields, bit_eq_one_of_ne_zero hsign]
  · simp_all [Instr.fields, bit_eq_one_of_ne_zero hsign]
  · rw [sel_eq_three_of_bit (src2_bit_eq_sel_bit src2 ▸ h4) h2] at hsel
    simp_all [Instr.fields, bit_eq_one_of_ne_zero hsign]

theorem decodeSkipc_fields (m : OpcodeMap) (f : Fields) :
    (decodeSkipc f).fields m = { f with opcode := m.value .skipc } := by
  obtain ⟨op, sign, dest, src1, src2⟩ := f
  simp only [decodeSkipc]
  split_ifs with h0 h1 h2 h3 h4 h5 h6
  case neg => simp [Instr.fields, condCode_eq_seven h0 h1 h2 h3 h4 h5 h6]
  all_goals simp [Instr.fields, *]

theorem decodeNamed_fields (m : OpcodeMap) (f : Fields) (o : Opcode) :
    (decodeNamed f o).fields m = { f with opcode := m.value o } := by
  cases o with
  | shr => exact decodeShr_fields m f
  | jal => exact decodeJal_fields m f
  | skipc => exact decodeSkipc_fields m f
  | _ => rfl

theorem decodeFields_fields (m : OpcodeMap) (f : Fields) : (decodeFields m f).fields m = f := by
  rcases decodeFields_cases m f with ⟨o, hvalue, hnamed⟩ | ⟨-, hunnamed⟩
  · rw [hnamed, decodeNamed_fields, hvalue]
  · rw [hunnamed]
    rfl

theorem encode_decode (m : OpcodeMap) (w : Word) : encode m (decode m w) = w := by
  rw [encode, decode, decodeFields_fields, pack_unpack]

/-! Encoding keeps every operand: an instruction is decoded from its own fields. -/

theorem decodeShr_sign0 (op : BitVec 4) (bit : BitVec 1) (dest src1 : BitVec 3) (amount : BitVec 4) :
    decodeShr ⟨op, 0#1, dest, src1, bit ++ amount⟩ =
      if bit = 0#1 then .srli dest src1 amount else .srai dest src1 amount := by
  simp [decodeShr, BitVec.extractLsb'_append_eq_left (w' := 4), BitVec.extractLsb'_append_eq_right (w' := 4)]

theorem decodeShr_sign1 (op : BitVec 4) (sel : BitVec 2) (dest src1 low : BitVec 3) :
    decodeShr ⟨op, 1#1, dest, src1, sel ++ low⟩ =
      if sel = 0#2 then .srl dest src1 low else if sel = 1#2 then .sra dest src1 low
      else if sel = 2#2 then .slli dest src1 low else .sll dest src1 low := by
  simp [decodeShr, BitVec.extractLsb'_append_eq_left (w' := 3), BitVec.extractLsb'_append_eq_right (w' := 3)]

theorem decodeJal_low (op : BitVec 4) (dest src1 : BitVec 3) (low : BitVec 4) :
    decodeJal ⟨op, 1#1, dest, src1, 0#1 ++ low⟩ = .jalr dest src1 low := by
  simp [decodeJal, BitVec.extractLsb'_append_eq_left (w' := 4), BitVec.extractLsb'_append_eq_right (w' := 4)]

theorem decodeJal_high (op : BitVec 4) (dest src1 : BitVec 3) {sel : BitVec 2} (hsel : sel.extractLsb' 1 1 = 1#1)
    (low : BitVec 3) :
    decodeJal ⟨op, 1#1, dest, src1, sel ++ low⟩ =
      if sel = 2#2 then .jalrHigh dest src1 low else .jalBack dest src1 low := by
  simp [decodeJal, src2_bit_of_sel_append, hsel, BitVec.extractLsb'_append_eq_left (w' := 3),
    BitVec.extractLsb'_append_eq_right (w' := 3)]

/-- Each instruction has the opcode value of the name it is decoded by, or is `unassigned`. -/
theorem Instr.decodeNamed_of_fields (m : OpcodeMap) (i : Instr) :
    (∃ o, (i.fields m).opcode = m.value o ∧ decodeNamed (i.fields m) o = i) ∨
      ∃ op sign dest src1 src2, i = .unassigned op sign dest src1 src2 := by
  cases i with
  | srli => exact .inl ⟨.shr, rfl, decodeShr_sign0 _ 0#1 _ _ _⟩
  | srai => exact .inl ⟨.shr, rfl, decodeShr_sign0 _ 1#1 _ _ _⟩
  | srl => exact .inl ⟨.shr, rfl, decodeShr_sign1 _ 0#2 _ _ _⟩
  | sra => exact .inl ⟨.shr, rfl, decodeShr_sign1 _ 1#2 _ _ _⟩
  | slli => exact .inl ⟨.shr, rfl, decodeShr_sign1 _ 2#2 _ _ _⟩
  | sll => exact .inl ⟨.shr, rfl, decodeShr_sign1 _ 3#2 _ _ _⟩
  | jalr => exact .inl ⟨.jal, rfl, decodeJal_low _ _ _ _⟩
  | jalrHigh => exact .inl ⟨.jal, rfl, decodeJal_high _ _ _ (sel := 2#2) (by decide) _⟩
  | jalBack => exact .inl ⟨.jal, rfl, decodeJal_high _ _ _ (sel := 3#2) (by decide) _⟩
  | prefixOp => exact .inl ⟨.prefixOp, rfl, rfl⟩
  | li => exact .inl ⟨.li, rfl, rfl⟩
  | add => exact .inl ⟨.add, rfl, rfl⟩
  | subr => exact .inl ⟨.subr, rfl, rfl⟩
  | and => exact .inl ⟨.and, rfl, rfl⟩
  | or => exact .inl ⟨.or, rfl, rfl⟩
  | xor => exact .inl ⟨.xor, rfl, rfl⟩
  | sw => exact .inl ⟨.sw, rfl, rfl⟩
  | sb => exact .inl ⟨.sb, rfl, rfl⟩
  | lw => exact .inl ⟨.lw, rfl, rfl⟩
  | lb => exact .inl ⟨.lb, rfl, rfl⟩
  | lbu => exact .inl ⟨.lbu, rfl, rfl⟩
  | jal => exact .inl ⟨.jal, rfl, rfl⟩
  | unassigned op sign dest src1 src2 => exact .inr ⟨op, sign, dest, src1, src2, rfl⟩
  | _ => exact .inl ⟨.skipc, rfl, rfl⟩

theorem decodeFields_of_instr {m : OpcodeMap} (hm : m.wf = true) {i : Instr} (hi : i.wf m = true) :
    decodeFields m (i.fields m) = i := by
  rcases i.decodeNamed_of_fields m with ⟨o, hvalue, hnamed⟩ | ⟨op, sign, dest, src1, src2, rfl⟩
  · rw [decodeFields_of_value hm hvalue, hnamed]
  · have hop : m.nameOf op = none := Option.isNone_iff_eq_none.1 hi
    exact decodeFields_of_unnamed (OpcodeMap.nameOf_eq_none.1 hop)

theorem decode_encode {m : OpcodeMap} (hm : m.wf = true) {i : Instr} (hi : i.wf m = true) : decode m (encode m i) = i := by
  rw [encode, decode_pack, decodeFields_of_instr hm hi]

/-! Which words decode to an unassigned instruction (R66). -/

theorem decodeNamed_ne_unassigned (f : Fields) (o : Opcode) (op : BitVec 4) (sign : BitVec 1) (dest src1 : BitVec 3)
    (src2 : BitVec 5) : decodeNamed f o ≠ .unassigned op sign dest src1 src2 := by
  cases o with
  | shr => simp only [decodeNamed, decodeShr]; split_ifs <;> simp
  | jal => simp only [decodeNamed, decodeJal]; split_ifs <;> simp
  | skipc => simp only [decodeNamed, decodeSkipc]; split_ifs <;> simp
  | _ => simp [decodeNamed]

theorem decode_eq_unassigned_iff (m : OpcodeMap) (w : Word) :
    (∃ op sign dest src1 src2, decode m w = .unassigned op sign dest src1 src2) ↔ ∀ o, m.value o ≠ (unpack w).opcode := by
  refine ⟨fun ⟨op, sign, dest, src1, src2, h⟩ => ?_, fun h => ⟨_, _, _, _, _, decodeFields_of_unnamed h⟩⟩
  rcases decodeFields_cases m (unpack w) with ⟨o, -, hnamed⟩ | ⟨hunnamed, -⟩
  · exact absurd (hnamed.symm.trans h) (decodeNamed_ne_unassigned _ o op sign dest src1 src2)
  · exact hunnamed

/-- The default OPCODE_MAP assigns every opcode value but 0xF (R64, R66). -/
theorem OpcodeMap.default_unnamed (v : BitVec 4) : (∀ o, OpcodeMap.default.value o ≠ v) ↔ v = 0xF#4 := by
  have hall : ∀ v : BitVec 4, OpcodeMap.default.nameOf v = none ↔ v = 0xF#4 := by decide
  rw [← OpcodeMap.nameOf_eq_none, hall]

end Sys2Proof

namespace Sys2Proof.Machine
open Sys2Proof

theorem exec_unassigned_eq (op : BitVec 4) (sign : BitVec 1) (dest src1 : BitVec 3) (src2 : BitVec 5) (s : State) :
    exec (.unassigned op sign dest src1 src2) s =
      .next (s.raise .illegalOpcode (some (pack ⟨op, sign, dest, src1, src2⟩))) := rfl

end Sys2Proof.Machine

namespace Sys2Proof.Proofs
open Sys2Proof Sys2Proof.Machine

/-- Settles O3: an instruction's fields carry the value of the name that decodes them to it, and an injective OPCODE_MAP finds
that name again. -/
theorem decodeEncodeAgree : Obligations.DecodeEncodeAgree :=
  fun _ _ hm hi => decode_encode hm hi

/-- Settles O4: the decoded instruction's fields are the word's, and the fields are all of the word. -/
theorem encodeDecodeAgree : Obligations.EncodeDecodeAgree :=
  encode_decode

/-- Settles O1, by what a bit range of a word is as a number. -/
theorem unpackTakesTheFieldBits : Obligations.UnpackTakesTheFieldBits := by
  intro w
  have hw : w.toNat < 65536 := w.isLt
  simp only [unpack, toNat_extractLsb'_eq]
  omega

/-- Settles O2: the word is the five fields laid side by side, whose number is R60's and which `unpack` reads back. -/
theorem encodeRawInvertsUnpack : Obligations.EncodeRawInvertsUnpack := by
  intro m o sign dest src1 src2
  refine ⟨fun hrange => ⟨_, if_pos hrange, ?_⟩, fun hrange => if_neg hrange⟩
  obtain ⟨hsign, hdest, hsrc1, hsrc2⟩ := hrange
  simp only [toNat_pack, unpack_pack, BitVec.toNat_ofNat]
  simp [Nat.mod_eq_of_lt, hsign, hdest, hsrc1, hsrc2]

/-- Settles O5: a word decodes to `unassigned` exactly when no name has its opcode value, which under the default map is 0xF;
the fault's word is the fetched word, since its fields are all of it. -/
theorem unassignedOpcodeFaults : Obligations.UnassignedOpcodeFaults := by
  refine ⟨fun m w => (decode_eq_unassigned_iff m w).symm, fun w => ?_, exec_unassigned_eq, fun s hrun heven hnone => ?_⟩
  · have hopcode : (unpack w).opcode.toNat = w.toNat / 4096 := (unpackTakesTheFieldBits w).1
    rw [decode_eq_unassigned_iff, OpcodeMap.default_unnamed, ← BitVec.toNat_inj, hopcode]
    show w.toNat / 4096 = 15 ↔ _
    have hw : w.toNat < 65536 := w.isLt
    omega
  · have hdecode := decodeFields_of_unnamed (f := unpack s.fetchWord) hnone
    rw [step_of_even_pc hrun heven, decode, hdecode, exec_unassigned_eq]
    exact congrArg (fun w => Host.Outcome.next (Rule.raised s .illegalOpcode (some w))) (pack_unpack _)

/-- Settles O6, by running the decoder on each word. -/
theorem decodesWordsOfTheSpec : Obligations.DecodesWordsOfTheSpec := by
  unfold Obligations.DecodesWordsOfTheSpec
  decide

end Sys2Proof.Proofs

namespace Sys2Proof.Machine
open Sys2Proof

/-! A 16-bit value split over a Prefix and an instruction word (R92, R101, R102). -/

/-- The two kinds of bits the extension mask 0x801F keeps of a nominal immediate: the low five and the sign (R101). -/
theorem extMask_getLsbD : ∀ i < 16, (0x801F : Word).getLsbD i = decide (i < 5 ∨ i = 15) := by
  decide

/-- The Prefix fields of `u` install the bits of `u` above the low five (R92). -/
theorem prefixExt_bits_getLsbD (u : Word) {i : Nat} (hi : i < 16) :
    (prefixExt (u.extractLsb' 13 3) (u.extractLsb' 10 3) (u.extractLsb' 5 5)).bits.getLsbD i =
      (decide (5 ≤ i) && u.getLsbD i) := by
  rw [prefixExt_bits, BitVec.extractLsb'_append_extractLsb'_eq_extractLsb' (x := u) (start₁ := 10) (len₁ := 3) rfl,
    BitVec.extractLsb'_append_extractLsb'_eq_extractLsb' (x := u) (start₁ := 5) (len₁ := 5) rfl, BitVec.getLsbD_append,
    BitVec.getLsbD_extractLsb']
  by_cases hlow : i < 5
  · simp [hlow]
  · have hoff : 5 + (i - 5) = i := by omega
    have hlen : i - 5 < 3 + 3 + 5 := by omega
    have hge : 5 ≤ i := by omega
    rw [if_neg hlow, decide_eq_true hlen, decide_eq_true hge, hoff]

/-- A nominal immediate with the low five bits and the sign of `u`, combined with the extension of `u`'s Prefix, is `u`. -/
theorem combine_prefixExt {s : State} {u nom : Word}
    (hext : s.ext = prefixExt (u.extractLsb' 13 3) (u.extractLsb' 10 3) (u.extractLsb' 5 5))
    (hlow : ∀ i < 5, nom.getLsbD i = u.getLsbD i) (hsign : nom.getLsbD 15 = u.getLsbD 15) : s.combine nom = u := by
  refine BitVec.eq_of_getLsbD_eq (fun i hi => ?_)
  rw [State.combine, hext, BitVec.getLsbD_or, BitVec.getLsbD_and, prefixExt_mask, extMask_getLsbD i hi,
    prefixExt_bits_getLsbD u hi]
  rcases Nat.lt_or_ge i 5 with h5 | h5
  · simp [h5, hlow]
  · by_cases h15 : i = 15
    · subst h15
      rw [hsign]
      simp
    · simp [h15, h5]

theorem signExtend_append_getLsbD_low {k : Nat} (hi : BitVec k) (low : BitVec 5) {i : Nat} (hi5 : i < 5) :
    ((hi ++ low).signExtend 16).getLsbD i = low.getLsbD i := by
  have hik : i < k + 5 := by omega
  have hi16 : i < 16 := by omega
  rw [BitVec.getLsbD_signExtend, decide_eq_true hi16, Bool.true_and, if_pos hik, BitVec.getLsbD_append, if_pos hi5]

theorem signExtend_append_getLsbD_sign {k : Nat} (hk : 0 < k) (hk10 : k ≤ 10) (hi : BitVec k) (low : BitVec 5) :
    ((hi ++ low).signExtend 16).getLsbD 15 = hi.msb := by
  have h15 : ¬ 15 < k + 5 := by omega
  rw [BitVec.getLsbD_signExtend, if_neg h15, BitVec.msb_append]
  simp [Nat.ne_of_gt hk]

theorem toInt_bit (b : BitVec 1) : b.toInt = -(b.toNat : Int) := by
  rcases BitVec.eq_zero_or_eq_one b with rfl | rfl <;> rfl

theorem toInt_append_of_pos {k l : Nat} (hk : 0 < k) (hi : BitVec k) (low : BitVec l) :
    (hi ++ low).toInt = 2 ^ l * hi.toInt + low.toNat := by
  simp [BitVec.toInt_append, Nat.ne_of_gt hk]

/-- The unsigned reading of a value's 16-bit pattern (R7). -/
theorem toNat_ofInt_word (v : Int) : ((BitVec.ofInt 16 v : Word).toNat : Int) = v % 65536 := by
  rw [BitVec.toNat_ofInt]
  exact Int.toNat_of_nonneg (Int.emod_nonneg v (by decide))

theorem toInt_ofInt_word {v : Int} (hlo : -32768 ≤ v) (hhi : v ≤ 32767) : (BitVec.ofInt 16 v : Word).toInt = v :=
  BitVec.toInt_ofInt_eq_self (by decide) hlo (by omega)

/-- A native value is its own nominal immediate in Li's nine bits (R70, R91). -/
theorem nomLi_of_native {v : Int} (hlo : -256 ≤ v) (hhi : v ≤ 255) {u : Word} (hu : u = BitVec.ofInt 16 v) :
    nomLi (u.extractLsb' 15 1) (u.extractLsb' 5 3) (u.extractLsb' 0 5) = u := by
  have huv : u.toInt = v := hu ▸ toInt_ofInt_word (by omega) (by omega)
  have hun : (u.toNat : Int) = v % 65536 := hu ▸ toNat_ofInt_word v
  apply BitVec.eq_of_toInt_eq
  rw [nomLi, BitVec.toInt_signExtend_of_le (by decide), toInt_append_of_pos (by decide),
    toInt_append_of_pos (by decide), toInt_bit]
  simp only [toNat_extractLsb'_eq, huv]
  omega

/-- A native value is its own nominal immediate in the six bits {sign, src2} (R71, R72, R91). -/
theorem nom6_of_native {v : Int} (hlo : -32 ≤ v) (hhi : v ≤ 31) {u : Word} (hu : u = BitVec.ofInt 16 v) :
    nom6 (u.extractLsb' 15 1) (u.extractLsb' 0 5) = u := by
  have huv : u.toInt = v := hu ▸ toInt_ofInt_word (by omega) (by omega)
  have hun : (u.toNat : Int) = v % 65536 := hu ▸ toNat_ofInt_word v
  apply BitVec.eq_of_toInt_eq
  rw [nom6, BitVec.toInt_signExtend_of_le (by decide), toInt_append_of_pos (by decide), toInt_bit]
  simp only [toNat_extractLsb'_eq, huv]
  omega

/-- No native value of an opcode with the register-select form has the bits of that form (R91, R105). -/
theorem not_select_of_native {v : Int} (hlo : -24 ≤ v) (hhi : v ≤ 31) {u : Word} (hu : u = BitVec.ofInt 16 v)
    (hsign : u.extractLsb' 15 1 = 1#1) : (u.extractLsb' 0 5).extractLsb' 3 2 ≠ 0#2 := by
  have hun : (u.toNat : Int) = v % 65536 := hu ▸ toNat_ofInt_word v
  rw [← BitVec.toNat_inj, toNat_extractLsb'_eq, BitVec.toNat_ofNat] at hsign
  rw [ne_eq, ← BitVec.toNat_inj, toNat_extractLsb'_eq, toNat_extractLsb'_eq, BitVec.toNat_ofNat]
  omega

/-! The state an emitted instruction word runs in (R90, R92, R101). -/

/-- The state after the Prefix for the immediate `u` (R92, R101). -/
def State.afterPrefix (s : State) (u : Word) : State :=
  s.commit { ext := prefixExt (u.extractLsb' 13 3) (u.extractLsb' 10 3) (u.extractLsb' 5 5) }

/-- The state in which the word of an instruction with the immediate `u` runs: a Prefix before it unless `u` is native. -/
def State.atEmitted (s : State) (native : Bool) (u : Word) : State :=
  if native then s else s.afterPrefix u

/-- The Prefix emitted before the word, if one is (R91, R92). -/
def emittedPrefix (m : OpcodeMap) (native : Bool) (u : Word) : List Word :=
  if native then [] else [prefixWord m u]

@[simp] theorem State.atEmitted_native (s : State) (u : Word) : s.atEmitted true u = s := rfl
@[simp] theorem State.atEmitted_prefixed (s : State) (u : Word) : s.atEmitted false u = s.afterPrefix u := rfl
@[simp] theorem State.afterPrefix_pc (s : State) (u : Word) : (s.afterPrefix u).pc = s.pc + 2 := rfl
@[simp] theorem State.atEmitted_regs (s : State) (native : Bool) (u : Word) : (s.atEmitted native u).regs = s.regs := by
  cases native <;> rfl
@[simp] theorem State.atEmitted_mem (s : State) (native : Bool) (u : Word) : (s.atEmitted native u).mem = s.mem := by
  cases native <;> rfl
@[simp] theorem State.atEmitted_halted (s : State) (native : Bool) (u : Word) :
    (s.atEmitted native u).halted = s.halted := by
  cases native <;> rfl
@[simp] theorem State.atEmitted_cfg (s : State) (native : Bool) (u : Word) : (s.atEmitted native u).cfg = s.cfg := by
  cases native <;> rfl
@[simp] theorem State.atEmitted_reg (s : State) (native : Bool) (u : Word) (r : Reg) :
    (s.atEmitted native u).reg r = s.reg r := by
  cases native <;> rfl

theorem emittedPrefix_eq_nil (m : OpcodeMap) (native : Bool) (u : Word) : emittedPrefix m native u = [] ↔ native = true := by
  cases native <;> simp [emittedPrefix]

/-- The word after an emitted instruction has the address after all its words (R63, R190). -/
theorem State.atEmitted_pc_add_two (s : State) (m : OpcodeMap) (w : Word) (native : Bool) (u : Word) :
    (s.atEmitted native u).pc + 2 = s.pc + 2 * BitVec.ofNat 16 (emittedPrefix m native u ++ [w]).length := by
  cases native with
  | true => rfl
  | false => exact BitVec.add_assoc s.pc 2 2

theorem emitWithPrefix_idle (m : OpcodeMap) (native : Bool) (u w : Word) :
    emitWithPrefix m false native u w = .ok (emittedPrefix m native u ++ [w]) := by
  cases native <;> rfl

/-! Running emitted words (R90). -/

theorem execWords_append {pre : List Word} {s t : State} (h : execWords pre s = .next t) (rest : List Word) :
    execWords (pre ++ rest) s = execWords rest t := by
  induction pre generalizing s with
  | nil => rw [← Host.Outcome.next.inj h, List.nil_append]
  | cons w pre ih =>
    simp only [execWords, List.cons_append] at h ⊢
    cases hw : exec (decode s.cfg.opcodeMap w) s with
    | next s' => exact ih (by simpa only [hw] using h)
    | fault r => simp [hw] at h
    | refused r => simp [hw] at h

theorem execWords_singleton {w : Word} {s t : State} (h : exec (decode s.cfg.opcodeMap w) s = .next t) :
    execWords [w] s = .next t := by
  simp only [execWords, h]

theorem exec_prefixOp_of_idle {s : State} (hidle : s.ext = Ext.identity) (sign : BitVec 1) (dest src1 : BitVec 3)
    (src2 : BitVec 5) : exec (.prefixOp sign dest src1 src2) s = .next (s.commit { ext := prefixExt dest src1 src2 }) :=
  if_neg (by simp [State.pending_eq_false.2 hidle])

theorem execWords_emittedPrefix {s : State} (hm : s.cfg.opcodeMap.wf = true) (hidle : s.ext = Ext.identity)
    (native : Bool) (u : Word) :
    execWords (emittedPrefix s.cfg.opcodeMap native u) s = .next (s.atEmitted native u) := by
  cases native with
  | true => rfl
  | false =>
    refine execWords_singleton ?_
    rw [prefixWord, decode_pack_of_name hm .prefixOp]
    exact exec_prefixOp_of_idle hidle _ _ _ _

/-! The immediate an emitted word reads is the caller's value (R90). -/

theorem State.afterPrefix_not_idle (s : State) (u : Word) : (s.afterPrefix u).ext ≠ Ext.identity := by
  intro h
  have hmask : (0x801F : Word) = 0xFFFF := congrArg Ext.mask h
  exact absurd hmask (by decide)

/-- After the Prefix for `u`, a nominal immediate whose sign and low five bits are `u`'s combines to `u` (R102). -/
theorem State.afterPrefix_combine (s : State) (u : Word) {k : Nat} (hk : 0 < k) (hk10 : k ≤ 10) {hi : BitVec k}
    (hsign : hi.msb = u.msb) : (s.afterPrefix u).combine ((hi ++ u.extractLsb' 0 5).signExtend 16) = u := by
  refine combine_prefixExt rfl (fun i hi5 => ?_) ?_
  · rw [signExtend_append_getLsbD_low _ _ hi5, BitVec.getLsbD_extractLsb', decide_eq_true hi5, Bool.true_and, Nat.zero_add]
  · rw [signExtend_append_getLsbD_sign hk hk10, hsign]
    rfl

theorem signBit_msb (u : Word) : (u.extractLsb' 15 1).msb = u.msb := by
  rw [BitVec.msb_eq_getLsbD_last, BitVec.msb_eq_getLsbD_last, BitVec.getLsbD_extractLsb']
  rfl

/-- Li reads the caller's value, prefixed or native (R70, R92, R102). -/
theorem State.atEmitted_combine_nomLi {s : State} (hidle : s.ext = Ext.identity) {v : Int} {u : Word}
    (hu : u = BitVec.ofInt 16 v) :
    (s.atEmitted (nativeLi v) u).combine (nomLi (u.extractLsb' 15 1) (u.extractLsb' 5 3) (u.extractLsb' 0 5)) = u := by
  cases hnative : nativeLi v with
  | true =>
    obtain ⟨hlo, hhi⟩ := of_decide_eq_true hnative
    rw [State.atEmitted_native, State.combine_identity hidle, nomLi_of_native hlo hhi hu]
  | false =>
    refine s.afterPrefix_combine u (hi := u.extractLsb' 15 1 ++ u.extractLsb' 5 3) (by decide) (by decide) ?_
    rw [BitVec.msb_append]
    exact signBit_msb u

/-- The operand mux reads the caller's value, prefixed or native, and never the register form (R71, R72, R92, R105). -/
theorem State.atEmitted_muxOperand {s : State} (hidle : s.ext = Ext.identity) (allowed : Bool) {v : Int} {u : Word}
    (hu : u = BitVec.ofInt 16 v) :
    (s.atEmitted (native6 allowed v) u).muxOperand allowed (u.extractLsb' 15 1) (u.extractLsb' 0 5) = u := by
  cases hnative : native6 allowed v with
  | true =>
    obtain ⟨hlo, hhi⟩ := of_decide_eq_true hnative
    have hlo32 : -32 ≤ v := by split_ifs at hlo <;> omega
    rw [State.atEmitted_native]
    rcases s.muxOperand_cases allowed (u.extractLsb' 15 1) (u.extractLsb' 0 5) with ⟨hallowed, hsel, -⟩ | ⟨-, hmux⟩
    · obtain ⟨-, hsign, hform⟩ := State.regSelect_iff.1 hsel
      exact absurd hform (not_select_of_native (by simpa [hallowed] using hlo) hhi hu hsign)
    · rw [hmux, State.combine_identity hidle, nom6_of_native hlo32 hhi hu]
  | false =>
    rw [State.atEmitted_prefixed]
    rcases (s.afterPrefix u).muxOperand_cases allowed (u.extractLsb' 15 1) (u.extractLsb' 0 5) with ⟨-, hsel, -⟩ | ⟨-, hmux⟩
    · exact absurd (State.regSelect_iff.1 hsel).1 (s.afterPrefix_not_idle u)
    · rw [hmux]
      exact s.afterPrefix_combine u (by decide) (by decide) (signBit_msb u)

/-! What the Encoder's immediate calls answer for a value in range (R91). -/

theorem emitLi_of_inRange {v : Int} (hlo : -32768 ≤ v) (hhi : v ≤ 32767) {u : Word} (hu : u = BitVec.ofInt 16 v)
    (p : Params) (pendingHere : Bool) (rd : Reg) :
    emitLi p pendingHere rd v = emitWithPrefix p.opcodeMap pendingHere (nativeLi v) u
      (pack ⟨p.opcodeMap.value .li, u.extractLsb' 15 1, rd, u.extractLsb' 5 3, u.extractLsb' 0 5⟩) :=
  hu ▸ if_pos (decide_eq_true ⟨hlo, hhi⟩)

theorem emitImm6_of_inRange {v : Int} (hlo : -32768 ≤ v) (hhi : v ≤ 32767) {u : Word} (hu : u = BitVec.ofInt 16 v)
    (p : Params) (pendingHere : Bool) (o : Imm6Op) (dest src1 : BitVec 3) :
    emitImm6 p pendingHere o dest src1 v = emitWithPrefix p.opcodeMap pendingHere (native6 (selectAllowed p o) v) u
      (pack ⟨p.opcodeMap.value o.opcode, u.extractLsb' 15 1, dest, src1, u.extractLsb' 0 5⟩) :=
  hu ▸ if_pos (decide_eq_true ⟨hlo, hhi⟩)

theorem exec_li_eq (sign : BitVec 1) (dest : Reg) (src1 : BitVec 3) (src2 : BitVec 5) (s : State) :
    exec (.li sign dest src1 src2) s = .next (s.commit { regWrite := some (dest, s.combine (nomLi sign src1 src2)) }) := rfl

/-- The register-select form exists for the opcodes R105, R160 and R161 give it to. -/
theorem selects_eq_selectAllowed (s : State) (o : Imm6Op) : Rule.selects s o = selectAllowed s.cfg o := by
  cases o <;> rfl

theorem selectAllowed_alu (p : Params) {o : Imm6Op} (ho : o ∈ [Imm6Op.add, .subr, .and, .or, .xor, .skipc]) :
    selectAllowed p o = true := by
  fin_cases ho <;> rfl

theorem selectAllowed_store (p : Params) {o : Imm6Op} (ho : o ∈ [Imm6Op.sw, .sb]) :
    selectAllowed p o = p.storeOffsetAlias := by
  fin_cases ho <;> rfl

theorem selectAllowed_load (p : Params) {o : Imm6Op} (ho : o ∈ [Imm6Op.lw, .lb, .lbu]) :
    selectAllowed p o = p.loadOffsetAlias := by
  fin_cases ho <;> rfl

end Sys2Proof.Machine

namespace Sys2Proof.Proofs
open Sys2Proof Sys2Proof.Machine

/-- Settles O52: the emitted Li word runs native or after its Prefix, and in both the immediate it reads is the caller's value. -/
theorem emittedLiLoadsEveryValue : Obligations.EmittedLiLoadsEveryValue := by
  intro rd v s hlo hhi hm hidle
  obtain ⟨u, hu⟩ : ∃ u : Word, u = BitVec.ofInt 16 v := ⟨_, rfl⟩
  have hli : execWords [pack ⟨s.cfg.opcodeMap.value .li, u.extractLsb' 15 1, rd, u.extractLsb' 5 3, u.extractLsb' 0 5⟩]
      (s.atEmitted (nativeLi v) u) = .next ((s.atEmitted (nativeLi v) u).commit { regWrite := some (rd, u) }) := by
    refine execWords_singleton ?_
    rw [State.atEmitted_cfg, decode_pack_of_name hm .li]
    exact (exec_li_eq _ _ _ _ _).trans (by rw [State.atEmitted_combine_nomLi hidle hu])
  refine ⟨_, _, (emitLi_of_inRange hlo hhi hu s.cfg false rd).trans (emitWithPrefix_idle _ _ _ _), ?_,
    (execWords_append (execWords_emittedPrefix hm hidle _ u) _).trans hli, ?_, ?_, ?_, rfl, ?_, ?_, ?_⟩
  · simp [emittedPrefix_eq_nil, nativeLi]
  · rw [State.commit_reg_dest _ _ _ _ rfl, hu, toInt_ofInt_word hlo hhi]
  · intro r hr
    rw [State.commit_reg_other _ _ rd r u rfl hr, State.atEmitted_reg]
  · intro a
    rw [State.commit_mem, Memory.apply_none, State.atEmitted_mem]
  · exact State.atEmitted_pc_add_two s _ _ _ u
  · exact State.atEmitted_halted ..
  · exact State.atEmitted_cfg ..

/-- Settles O53: the operand mux reads the caller's value in the state the word runs in, and that state keeps all else. -/
theorem emittedSixBitOperandsAreTheImmediate : Obligations.EmittedSixBitOperandsAreTheImmediate := by
  intro o dest src1 v s hlo hhi hm hidle
  obtain ⟨u, hu⟩ : ∃ u : Word, u = BitVec.ofInt 16 v := ⟨_, rfl⟩
  have hmux := State.atEmitted_muxOperand hidle (selectAllowed s.cfg o) hu
  refine ⟨_, _, _, (emitImm6_of_inRange hlo hhi hu s.cfg false o dest src1).trans (emitWithPrefix_idle _ _ _ _),
    execWords_emittedPrefix hm hidle _ u, ?_⟩
  simp only [unpack_pack, ← hu, true_and]
  refine ⟨fun ho => ?_, fun ho => ?_, fun ho => ?_, fun r => State.atEmitted_reg .., fun a => ?_, State.atEmitted_halted ..,
    State.atEmitted_cfg .., ?_⟩
  · rwa [selectAllowed_alu _ ho] at hmux ⊢
  · rw [selectAllowed_store _ ho] at hmux ⊢
    rw [State.storeAddress, State.atEmitted_cfg, State.atEmitted_reg, hmux]
  · rw [selectAllowed_load _ ho] at hmux ⊢
    rw [State.loadAddress, State.atEmitted_cfg, State.atEmitted_reg, hmux]
  · rw [State.atEmitted_mem]
  · rw [emittedPrefix_eq_nil, selects_eq_selectAllowed, native6, decide_eq_true_iff]

end Sys2Proof.Proofs

namespace Sys2Proof.Machine
open Sys2Proof

/-! A Shr word runs the variant of its selector (R141, R142). -/

/-- A decoded Shr is dispatched on the sign and src2 of its own fields (R65, R142). -/
theorem exec_decodeShr (f : Fields) (s : State) :
    exec (decodeShr f) s = shrStep (decodeShr f) f.sign f.dest f.src1 f.src2 s := by
  have hown : ∀ g : Fields, g = (decodeShr f).fields s.cfg.opcodeMap →
      exec (decodeShr f) s = shrStep (decodeShr f) g.sign g.dest g.src1 g.src2 s := by
    rintro g rfl
    simp only [decodeShr]
    split_ifs <;> rfl
  have hfields := hown _ (decodeShr_fields s.cfg.opcodeMap f).symm
  exact hfields

theorem shrStep_of_variant {s : State} {sign : BitVec 1} {src2 : BitVec 5} {v : ShiftVariant}
    (hentry : s.cfg.shrMap.entry sign (src2.extractLsb' 3 2) = .variant v) (i : Instr) (dest src1 : Reg) :
    shrStep i sign dest src1 src2 s =
      .next (s.commit { regWrite := some (dest, shiftValue (s.reg src1) (s.shiftAmount src2 v) v) }) := by
  simp only [shrStep, hentry]

theorem execWords_shr {s : State} (hm : s.cfg.opcodeMap.wf = true) {sign : BitVec 1} {src2 : BitVec 5} {v : ShiftVariant}
    (hentry : s.cfg.shrMap.entry sign (src2.extractLsb' 3 2) = .variant v) (rd rs1 : Reg) :
    execWords [pack ⟨s.cfg.opcodeMap.value .shr, sign, rd, rs1, src2⟩] s =
      .next (s.commit { regWrite := some (rd, shiftValue (s.reg rs1) (s.shiftAmount src2 v) v) }) := by
  refine execWords_singleton ?_
  rw [decode_pack_of_name hm .shr, decodeNamed, exec_decodeShr, shrStep_of_variant hentry]

/-! The shifts as arithmetic on the number a pattern stands for (R8). -/

theorem ushiftRight_eq_ofNat (x : Word) (n : Nat) : x >>> n = BitVec.ofNat 16 (x.toNat / 2 ^ n) := by
  rw [← Nat.shiftRight_eq_div_pow, ← BitVec.toNat_ushiftRight, BitVec.ofNat_toNat, BitVec.setWidth_eq]

theorem sshiftRight_eq_ofInt (x : Word) (n : Nat) : x.sshiftRight n = BitVec.ofInt 16 (x.toInt / 2 ^ n) := by
  rw [BitVec.sshiftRight, Int.shiftRight_eq_div_pow, Nat.cast_pow, Nat.cast_ofNat]

theorem shiftLeft_eq_ofNat (x : Word) (n : Nat) : x <<< n = BitVec.ofNat 16 (x.toNat * 2 ^ n) := by
  apply BitVec.eq_of_toNat_eq
  rw [BitVec.toNat_shiftLeft, Nat.shiftLeft_eq, BitVec.toNat_ofNat]

theorem shiftValue_eq_rule (x : Word) (n : BitVec 4) (v : ShiftVariant) : shiftValue x n v = Rule.shift x n.toNat v := by
  cases v with
  | srli => exact ushiftRight_eq_ofNat x _
  | srl => exact ushiftRight_eq_ofNat x _
  | srai => exact sshiftRight_eq_ofInt x _
  | sra => exact sshiftRight_eq_ofInt x _
  | slli => exact shiftLeft_eq_ofNat x _
  | sll => exact shiftLeft_eq_ofNat x _

/-! The candidate words of a shift all hold its amount, or its amount register, where the variant reads it (R141, R143). -/

theorem amount4Candidates_low {n : BitVec 4} {c : BitVec 1 × BitVec 5} (hc : c ∈ amount4Candidates n) :
    c.2.extractLsb' 0 4 = n := by
  have happend : ∃ bit : BitVec 1, c.2 = bit ++ n := by
    fin_cases hc
    exacts [⟨0#1, rfl⟩, ⟨1#1, rfl⟩, ⟨0#1, rfl⟩, ⟨1#1, rfl⟩]
  obtain ⟨bit, hbit⟩ := happend
  rw [hbit]
  exact BitVec.extractLsb'_append_eq_right

theorem low3Candidates_low {n : BitVec 3} {c : BitVec 1 × BitVec 5} (hc : c ∈ low3Candidates n) :
    c.2.extractLsb' 0 3 = n := by
  have happend : ∃ sel : BitVec 2, c.2 = sel ++ n := by
    fin_cases hc
    exacts [⟨0#2, rfl⟩, ⟨1#2, rfl⟩, ⟨2#2, rfl⟩, ⟨3#2, rfl⟩, ⟨0#2, rfl⟩, ⟨1#2, rfl⟩, ⟨2#2, rfl⟩, ⟨3#2, rfl⟩]
  obtain ⟨sel, hsel⟩ := happend
  rw [hsel]
  exact BitVec.extractLsb'_append_eq_right

/-- A shift emitted from candidates that all hold the amount `n` is one word, which shifts by `n` (R90). -/
theorem emitShift_runs {s : State} (hm : s.cfg.opcodeMap.wf = true) {v : ShiftVariant} {rd rs1 : Reg}
    {cs : List (BitVec 1 × BitVec 5)} {ws : List Word} (hws : emitShift s.cfg v rd rs1 cs = .ok ws) {n : Nat}
    (hamount : ∀ c ∈ cs, (s.shiftAmount c.2 v).toNat = n) :
    ws.length = 1 ∧ ∃ t, execWords ws s = .next t ∧ Rule.WritesReg s t rd (Rule.shift (s.reg rs1) n v) ∧
      Rule.KeepsMem s t ∧ Rule.Retires s t (s.pc + 2) := by
  obtain ⟨c, hc, hentry, rfl⟩ := emitShift_cases hws
  refine ⟨rfl, _, execWords_shr hm hentry rd rs1, ?_, fun _ => rfl, rfl, rfl, rfl, rfl⟩
  rw [shiftValue_eq_rule, hamount c hc]
  exact ⟨State.commit_reg_dest _ _ _ _ rfl, fun r hr => State.commit_reg_other _ _ _ _ _ rfl hr⟩

/-! Which shifts are emitted (R91, R141). -/

theorem ite_error_eq_ok_iff (c : Prop) [Decidable c] (x : Emitted) (e : EncodeError) (ws : List Word) :
    (if c then x else .error e) = .ok ws ↔ c ∧ x = .ok ws := by
  by_cases h : c <;> simp [h]

theorem emitShiftImm_ok_iff (p : Params) (v : ShiftVariant) (rd rs1 : Reg) (n : Nat) (ws : List Word) :
    emitShiftImm p v rd rs1 n = .ok ws ↔
      ((v = .srli ∨ v = .srai) ∧ n < 16 ∧ emitShift p v rd rs1 (amount4Candidates (BitVec.ofNat 4 n)) = .ok ws) ∨
        (v = .slli ∧ n < 8 ∧ emitShift p v rd rs1 (low3Candidates (BitVec.ofNat 3 n)) = .ok ws) := by
  cases v <;> simp [emitShiftImm, ite_error_eq_ok_iff]

theorem emitShiftReg_ok_iff (p : Params) (v : ShiftVariant) (rd rs1 r : Reg) (ws : List Word) :
    emitShiftReg p v rd rs1 r = .ok ws ↔
      (v = .srl ∨ v = .sra ∨ v = .sll) ∧ emitShift p v rd rs1 (low3Candidates r) = .ok ws := by
  cases v <;> simp [emitShiftReg]

/-- A candidate whose selector SHR_MAP maps to the variant is enough for the shift to be emitted. -/
theorem exists_emitShift {p : Params} {v : ShiftVariant} {cs : List (BitVec 1 × BitVec 5)} {c : BitVec 1 × BitVec 5}
    (hc : c ∈ cs) (hentry : p.shrMap.entry c.1 (c.2.extractLsb' 3 2) = .variant v) (rd rs1 : Reg) :
    ∃ ws, emitShift p v rd rs1 cs = .ok ws := by
  unfold emitShift
  split
  · exact ⟨_, rfl⟩
  · next hnone => exact absurd (decide_eq_true hentry) (List.find?_eq_none.1 hnone c hc)

/-- Under the default SHR_MAP src2[4] alone tells srli from srai (R141). -/
theorem ShrMap.default_entry_sign0 : ∀ (bit : BitVec 1) (n : BitVec 4),
    ShrMap.default.entry 0#1 ((bit ++ n).extractLsb' 3 2) = .variant (if bit = 0#1 then .srli else .srai) := by
  decide

theorem entry_append {m : ShrMap} {sign : BitVec 1} {sel : BitVec 2} {e : ShrEntry} (h : m.entry sign sel = e)
    (low : BitVec 3) : m.entry sign ((sel ++ low).extractLsb' 3 2) = e := by
  rwa [BitVec.extractLsb'_append_eq_left (w' := 3)]

theorem exists_emitShift_amount4 {p : Params} (hp : p.shrMap = ShrMap.default) {v : ShiftVariant}
    (hv : v = .srli ∨ v = .srai) (rd rs1 : Reg) (n : BitVec 4) :
    ∃ ws, emitShift p v rd rs1 (amount4Candidates n) = .ok ws := by
  rcases hv with rfl | rfl
  · exact exists_emitShift (c := (0#1, 0#1 ++ n)) (by simp [amount4Candidates])
      (hp ▸ ShrMap.default_entry_sign0 0#1 n) rd rs1
  · exact exists_emitShift (c := (0#1, 1#1 ++ n)) (by simp [amount4Candidates])
      (hp ▸ ShrMap.default_entry_sign0 1#1 n) rd rs1

theorem exists_emitShift_low3 {p : Params} (hp : p.shrMap = ShrMap.default) {v : ShiftVariant}
    (hv : v = .srl ∨ v = .sra ∨ v = .slli ∨ v = .sll) (rd rs1 : Reg) (n : BitVec 3) :
    ∃ ws, emitShift p v rd rs1 (low3Candidates n) = .ok ws := by
  rcases hv with rfl | rfl | rfl | rfl
  · exact exists_emitShift (c := (1#1, 0#2 ++ n)) (by simp [low3Candidates]) (entry_append (by rw [hp]; rfl) n) rd rs1
  · exact exists_emitShift (c := (1#1, 1#2 ++ n)) (by simp [low3Candidates]) (entry_append (by rw [hp]; rfl) n) rd rs1
  · exact exists_emitShift (c := (1#1, 2#2 ++ n)) (by simp [low3Candidates]) (entry_append (by rw [hp]; rfl) n) rd rs1
  · exact exists_emitShift (c := (1#1, 3#2 ++ n)) (by simp [low3Candidates]) (entry_append (by rw [hp]; rfl) n) rd rs1

/-- An emitted immediate shift reads the caller's amount (R90). -/
theorem emitShiftImm_runs {s : State} (hm : s.cfg.opcodeMap.wf = true) {v : ShiftVariant} {rd rs1 : Reg} {n : Nat}
    {ws : List Word} (hws : emitShiftImm s.cfg v rd rs1 n = .ok ws) :
    ws.length = 1 ∧ ∃ t, execWords ws s = .next t ∧ Rule.WritesReg s t rd (Rule.shift (s.reg rs1) n v) ∧
      Rule.KeepsMem s t ∧ Rule.Retires s t (s.pc + 2) := by
  rcases (emitShiftImm_ok_iff ..).1 hws with ⟨hv, hn, hshift⟩ | ⟨rfl, hn, hshift⟩
  · refine emitShift_runs hm hshift (fun c hc => ?_)
    have hlow : (c.2.extractLsb' 0 4).toNat = n := by
      rw [amount4Candidates_low hc, BitVec.toNat_ofNat, Nat.mod_eq_of_lt hn]
    rcases hv with rfl | rfl <;> exact hlow
  · refine emitShift_runs hm hshift (fun c hc => ?_)
    rw [State.shiftAmount, low3Candidates_low hc, BitVec.toNat_setWidth_of_le (by decide), BitVec.toNat_ofNat,
      Nat.mod_eq_of_lt hn]

/-- An emitted register shift reads the low four bits of the amount register (R90, R143). -/
theorem emitShiftReg_runs {s : State} (hm : s.cfg.opcodeMap.wf = true) {v : ShiftVariant} {rd rs1 r : Reg}
    {ws : List Word} (hws : emitShiftReg s.cfg v rd rs1 r = .ok ws) :
    ws.length = 1 ∧ ∃ t, execWords ws s = .next t ∧
      Rule.WritesReg s t rd (Rule.shift (s.reg rs1) ((s.reg r).toNat % 16) v) ∧ Rule.KeepsMem s t ∧
      Rule.Retires s t (s.pc + 2) := by
  obtain ⟨hv, hshift⟩ := (emitShiftReg_ok_iff ..).1 hws
  refine emitShift_runs hm hshift (fun c hc => ?_)
  have hlow : ((s.reg (selIndex c.2)).extractLsb' 0 4).toNat = (s.reg r).toNat % 16 := by
    rw [selIndex, low3Candidates_low hc]
    simp
  rcases hv with rfl | rfl | rfl <;> exact hlow

end Sys2Proof.Machine

namespace Sys2Proof.Proofs
open Sys2Proof Sys2Proof.Machine

/-- Settles O55: every candidate word of a shift holds its amount, and the emitted one selects the variant; under the default
SHR_MAP there is a candidate for each variant a call admits. -/
theorem emittedShiftsRunTheirVariant : Obligations.EmittedShiftsRunTheirVariant := by
  intro v rd rs1 s hm
  refine ⟨fun n ws => emitShiftImm_runs hm, fun r ws => emitShiftReg_runs hm, fun hp => ⟨fun n => ?_, fun r => ?_⟩⟩
  · simp only [emitShiftImm_ok_iff]
    constructor
    · rintro ⟨ws, ⟨rfl | rfl, hn, -⟩ | ⟨rfl, hn, -⟩⟩
      · exact .inl ⟨rfl, hn⟩
      · exact .inr (.inl ⟨rfl, hn⟩)
      · exact .inr (.inr ⟨rfl, hn⟩)
    · rintro (⟨hv, hn⟩ | ⟨hv, hn⟩ | ⟨hv, hn⟩)
      · obtain ⟨ws, hws⟩ := exists_emitShift_amount4 hp (.inl hv) rd rs1 (BitVec.ofNat 4 n)
        exact ⟨ws, .inl ⟨.inl hv, hn, hws⟩⟩
      · obtain ⟨ws, hws⟩ := exists_emitShift_amount4 hp (.inr hv) rd rs1 (BitVec.ofNat 4 n)
        exact ⟨ws, .inl ⟨.inr hv, hn, hws⟩⟩
      · obtain ⟨ws, hws⟩ := exists_emitShift_low3 hp (.inr (.inr (.inl hv))) rd rs1 (BitVec.ofNat 3 n)
        exact ⟨ws, .inr ⟨hv, hn, hws⟩⟩
  · simp only [emitShiftReg_ok_iff]
    refine ⟨fun ⟨_, hv, _⟩ => hv, fun hv => ?_⟩
    obtain ⟨ws, hws⟩ := exists_emitShift_low3 hp (hv.imp_right (Or.imp_right .inr)) rd rs1 r
    exact ⟨ws, hv, hws⟩

end Sys2Proof.Proofs

namespace Sys2Proof.Machine
open Sys2Proof

/-! Which emitted words are Prefix words (R64, R94). -/

/-- Under an injective OPCODE_MAP a word with a name's value is a Prefix only for the name `prefixOp` (R5, R64). -/
theorem isPrefix_pack {m : OpcodeMap} (hm : m.wf = true) {o : Opcode} {sign : BitVec 1} {dest src1 : BitVec 3}
    {src2 : BitVec 5} (h : Rule.isPrefix m (pack ⟨m.value o, sign, dest, src1, src2⟩)) : o = .prefixOp := by
  have hopcode : m.value o = m.value .prefixOp :=
    (congrArg Fields.opcode (unpack_pack ⟨m.value o, sign, dest, src1, src2⟩)).symm.trans h
  have hname : some o = some .prefixOp := by
    rw [← OpcodeMap.nameOf_value hm o, hopcode, OpcodeMap.nameOf_value hm]
  exact Option.some.inj hname

theorem noTwoPrefixes_singleton {m : OpcodeMap} {P : Prop} {w : Word} (h : P → ¬ Rule.isPrefix m w) :
    Rule.noTwoPrefixes m P [w] :=
  ⟨fun ⟨hP, hw⟩ => h hP hw, trivial⟩

theorem noTwoPrefixes_other {m : OpcodeMap} (hm : m.wf = true) (P : Prop) {o : Opcode} (ho : o ≠ .prefixOp) (sign : BitVec 1)
    (dest src1 : BitVec 3) (src2 : BitVec 5) : Rule.noTwoPrefixes m P [pack ⟨m.value o, sign, dest, src1, src2⟩] :=
  noTwoPrefixes_singleton fun _ hw => ho (isPrefix_pack hm hw)

/-- With no extension pending, a first word may be a Prefix where the words after it hold no two in a row. -/
theorem noTwoPrefixes_cons {m : OpcodeMap} {pendingHere : Bool} (hidle : pendingHere = false) {w : Word} {rest : List Word}
    (hrest : Rule.noTwoPrefixes m (Rule.isPrefix m w) rest) : Rule.noTwoPrefixes m (pendingHere = true) (w :: rest) :=
  ⟨fun ⟨hp, _⟩ => absurd hp (by simp [hidle]), hrest⟩

theorem emitWithPrefix_noTwoPrefixes {m : OpcodeMap} (hm : m.wf = true) {pendingHere native : Bool} {u : Word} {o : Opcode}
    (ho : o ≠ .prefixOp) {sign : BitVec 1} {dest src1 : BitVec 3} {src2 : BitVec 5} {ws : List Word}
    (h : emitWithPrefix m pendingHere native u (pack ⟨m.value o, sign, dest, src1, src2⟩) = .ok ws) :
    Rule.noTwoPrefixes m (pendingHere = true) ws := by
  rcases emitWithPrefix_cases h with ⟨-, rfl⟩ | ⟨-, hidle, rfl⟩
  · exact noTwoPrefixes_other hm _ ho _ _ _ _
  · exact noTwoPrefixes_cons hidle (noTwoPrefixes_other hm _ ho _ _ _ _)

theorem encodeRaw_ok {m : OpcodeMap} {o : Opcode} {sign dest src1 src2 : Nat} {w : Word}
    (h : encodeRaw m o sign dest src1 src2 = .ok w) :
    w = pack ⟨m.value o, BitVec.ofNat 1 sign, BitVec.ofNat 3 dest, BitVec.ofNat 3 src1, BitVec.ofNat 5 src2⟩ := by
  unfold encodeRaw at h
  split at h
  · exact (Except.ok.inj h).symm
  · cases h

theorem emitRaw_noTwoPrefixes {m : OpcodeMap} (hm : m.wf = true) {pendingHere : Bool} {o : Opcode}
    {sign dest src1 src2 : Nat} {ws : List Word} (h : emitRaw m pendingHere o sign dest src1 src2 = .ok ws) :
    Rule.noTwoPrefixes m (pendingHere = true) ws := by
  obtain ⟨hnot, w, hw, rfl⟩ := emitRaw_cases h
  rw [encodeRaw_ok hw]
  exact noTwoPrefixes_singleton fun hp hprefix => hnot ⟨isPrefix_pack hm hprefix, hp⟩

theorem emitLi_noTwoPrefixes {p : Params} (hm : p.opcodeMap.wf = true) {pendingHere : Bool} {rd : Reg} {v : Int}
    {ws : List Word} (h : emitLi p pendingHere rd v = .ok ws) :
    Rule.noTwoPrefixes p.opcodeMap (pendingHere = true) ws :=
  emitWithPrefix_noTwoPrefixes hm (o := .li) (by decide) ((ite_error_eq_ok_iff _ _ _ _).1 h).2

theorem emitImm6_noTwoPrefixes {p : Params} (hm : p.opcodeMap.wf = true) {pendingHere : Bool} {o : Imm6Op}
    {dest src1 : BitVec 3} {v : Int} {ws : List Word} (h : emitImm6 p pendingHere o dest src1 v = .ok ws) :
    Rule.noTwoPrefixes p.opcodeMap (pendingHere = true) ws :=
  emitWithPrefix_noTwoPrefixes hm o.opcode_ne_prefixOp ((ite_error_eq_ok_iff _ _ _ _).1 h).2

theorem emitJal_noTwoPrefixes {p : Params} (hm : p.opcodeMap.wf = true) {pendingHere : Bool} {place target : Word}
    {ws : List Word} (h : emitJal p pendingHere place target = .ok ws) :
    Rule.noTwoPrefixes p.opcodeMap (pendingHere = true) ws := by
  rcases emitJal_cases h with ⟨-, sign, dest, src1, src2, rfl⟩ | ⟨-, hidle, dest, src1, src2, rfl⟩
  · exact noTwoPrefixes_other hm _ (by decide) _ _ _ _
  · exact noTwoPrefixes_cons hidle (noTwoPrefixes_other hm _ (by decide) _ _ _ _)

theorem emitShift_noTwoPrefixes {p : Params} (hm : p.opcodeMap.wf = true) (P : Prop) {v : ShiftVariant} {rd rs1 : Reg}
    {cs : List (BitVec 1 × BitVec 5)} {ws : List Word} (h : emitShift p v rd rs1 cs = .ok ws) :
    Rule.noTwoPrefixes p.opcodeMap P ws := by
  obtain ⟨c, -, -, rfl⟩ := emitShift_cases h
  exact noTwoPrefixes_other hm _ (by decide) _ _ _ _

/-! The calls that would emit a Prefix while an extension is pending (R94). -/

@[simp] theorem emitRaw_prefixOp_pending (m : OpcodeMap) (sign dest src1 src2 : Nat) :
    emitRaw m true .prefixOp sign dest src1 src2 = .error .prefixAfterPrefix :=
  if_pos ⟨rfl, rfl⟩

theorem emitRaw_idle (m : OpcodeMap) (o : Opcode) (sign dest src1 src2 : Nat) :
    emitRaw m false o sign dest src1 src2 = (encodeRaw m o sign dest src1 src2).map (fun w => [w]) :=
  if_neg (by simp)

/-- The native offsets by the pattern's low five bits are R91's, by the offset modulo 32. -/
theorem nativeJal_iff_rule (w : Int) : nativeJal w = true ↔ Rule.nativeJal w := by
  have hlow : (((BitVec.ofInt 16 w : Word).extractLsb' 0 5).toNat : Int) = w % 32 := by
    have hu := toNat_ofInt_word w
    rw [toNat_extractLsb'_eq]
    omega
  simp only [nativeJal, Rule.nativeJal, Bool.or_eq_true, Bool.and_eq_true, decide_eq_true_iff]
  omega

theorem jalOffset_eq_rule (b : JalRelBase) (a t : Word) : jalOffset b a t = Rule.jalOffset b a t := by
  cases b <;> rfl

theorem emitJal_pending_of_not_native {target : Word} (heven : target.toNat % 2 = 0) {p : Params} {place : Word}
    (hnative : nativeJal (jalOffset p.jalRelBase place target) = false) :
    emitJal p true place target = .error .prefixAfterPrefix := by
  have hbit : ¬ target.extractLsb' 0 1 = 1#1 := by
    have hodd := isOdd_eq_decide target
    simpa [isOdd, heven] using hodd
  simp [emitJal, hbit, hnative]

end Sys2Proof.Machine

namespace Sys2Proof.Proofs
open Sys2Proof Sys2Proof.Machine

/-- Settles O57: each call emits one word, a Prefix only for a raw one with none pending, or a Prefix and then another name's
word, with none pending. -/
theorem encoderNeverEmitsTwoPrefixesInARow : Obligations.EncoderNeverEmitsTwoPrefixesInARow := by
  rintro s pendingHere ws hm (⟨o, sign, dest, src1, src2, h⟩ | ⟨dest, src1, src2, h⟩ | ⟨rd, v, h⟩ | ⟨o, dest, src1, v, h⟩ |
    ⟨o, dest, src1, r, rfl⟩ | ⟨place, target, h⟩ | ⟨r, rfl⟩ | ⟨v, rd, rs1, n, h⟩ | ⟨v, rd, rs1, r, h⟩)
  · exact emitRaw_noTwoPrefixes hm h
  · exact emitRaw_noTwoPrefixes hm h
  · exact emitLi_noTwoPrefixes hm h
  · exact emitImm6_noTwoPrefixes hm h
  · exact noTwoPrefixes_other hm _ o.opcode_ne_prefixOp _ _ _ _
  · exact emitJal_noTwoPrefixes hm h
  · exact noTwoPrefixes_other hm _ (o := .jal) (by decide) _ _ _ _
  · rcases (emitShiftImm_ok_iff ..).1 h with ⟨-, -, hshift⟩ | ⟨-, -, hshift⟩
    · exact emitShift_noTwoPrefixes hm _ hshift
    · exact emitShift_noTwoPrefixes hm _ hshift
  · exact emitShift_noTwoPrefixes hm _ ((emitShiftReg_ok_iff ..).1 h).2

/-- Settles O56: a value that is not native sends each call to `emitWithPrefix`, which refuses while an extension is pending. -/
theorem encoderRefusesPrefixAfterPrefix : Obligations.EncoderRefusesPrefixAfterPrefix := by
  intro s
  refine ⟨fun _ _ _ _ => emitRaw_prefixOp_pending .., fun dest src1 src2 => ⟨emitRaw_prefixOp_pending .., ?_⟩, ?_, ?_, ?_⟩
  · intro hdest hsrc1 hsrc2
    obtain ⟨w, hw, hword, -⟩ :=
      (encodeRawInvertsUnpack s.cfg.opcodeMap .prefixOp 0 dest src1 src2).1 ⟨by decide, hdest, hsrc1, hsrc2⟩
    exact ⟨w, by rw [emitPrefix, emitRaw_idle, hw]; rfl, hword⟩
  · intro rd v hlo hhi hnative
    have hnot : nativeLi v = false := decide_eq_false hnative
    rw [emitLi_of_inRange hlo hhi rfl, hnot, emitWithPrefix_pending]
  · intro o dest src1 v hlo hhi hnative
    rw [selects_eq_selectAllowed] at hnative
    have hnot : native6 (selectAllowed s.cfg o) v = false := decide_eq_false hnative
    rw [emitImm6_of_inRange hlo hhi rfl, hnot, emitWithPrefix_pending]
  · intro place target heven hnative
    rw [← jalOffset_eq_rule, ← nativeJal_iff_rule, Bool.not_eq_true] at hnative
    exact emitJal_pending_of_not_native heven hnative

end Sys2Proof.Proofs

namespace Sys2Proof.Machine
open Sys2Proof

/-! The extension state along a run (R26, R104, R253). -/

/-- The host's load touches memory alone, so it keeps the invariant (R251). -/
theorem State.Legal.loadBytes {s : State} (hs : s.Legal) (a : Word) (bs : List Byte) : (s.loadBytes a bs).Legal := by
  obtain ⟨-, -, hext, -, hcfg⟩ := s.loadBytes_fields a bs
  exact ⟨s.loadBytes_wf hs.mem a bs, hext.symm ▸ hs.ext, hcfg.symm ▸ hs.opcodeMap⟩

/-- A run from a legal state stays in legal states. -/
theorem Reachable.legal {s₀ s : State} (hreach : Reachable s₀ s) (h₀ : s₀.Legal) : s.Legal := by
  induction hreach with
  | start => exact h₀
  | step _ hstep ih => exact Proofs.stepKeepsLegal _ _ ih hstep

/-- The state a step answers: a faulting one, at the fetch or in the instruction, or a commit with the extension of the
instruction that was fetched (R104, R221). -/
theorem step_next_cases {s t : State} (h : step s = .next t) :
    (∃ k w, t = s.raise k w) ∨ ∃ e, t = s.commit e ∧ e.ext = extAfter (decode s.cfg.opcodeMap s.fetchWord) := by
  obtain ⟨-, ⟨-, ht⟩ | ⟨-, hexec⟩⟩ := step_cases h
  · exact .inl ⟨_, _, ht⟩
  · rcases exec_cases (decode s.cfg.opcodeMap s.fetchWord) s with ⟨k, hraise⟩ | ⟨e, hcommit, hext, -⟩
    · exact .inl ⟨k, _, Host.Outcome.next.inj (hexec.symm.trans hraise)⟩
    · exact .inr ⟨e, Host.Outcome.next.inj (hexec.symm.trans hcommit), hext⟩

theorem extAfter_of_not_prefix {i : Instr} (hi : ¬ ∃ sign dest src1 src2, i = .prefixOp sign dest src1 src2) :
    extAfter i = Ext.identity := by
  cases i with
  | prefixOp sign dest src1 src2 => exact absurd ⟨sign, dest, src1, src2, rfl⟩ hi
  | _ => rfl

end Sys2Proof.Machine

namespace Sys2Proof.Proofs
open Sys2Proof Sys2Proof.Machine

/-- Settles O17: reset is legal, the host's load keeps it so, and every step of the run does. -/
theorem reachableExtensionStates : Obligations.ReachableExtensionStates :=
  fun image _ hreach => (hreach.legal (resetIsLegal.loadBytes 0 image)).ext

/-- Settles O18: a step that raises a fault writes `halted` alone; one that completes commits the extension of its own
instruction, which is the identity pair for all but Prefix. -/
theorem extensionResetsAfterEveryOtherStep : Obligations.ExtensionResetsAfterEveryOtherStep := by
  intro s t hstep
  have hrun : s.halted = none := (step_cases hstep).1
  rcases step_next_cases hstep with ⟨k, w, rfl⟩ | ⟨e, rfl, hext⟩
  · exact ⟨fun hnone => by simp at hnone, fun _ => s.raise_ext k w⟩
  · exact ⟨fun _ hnot => hext.trans (extAfter_of_not_prefix hnot), fun hhalted => absurd hrun hhalted⟩

end Sys2Proof.Proofs

namespace Sys2Proof.Machine
open Sys2Proof

/-! The extension a Prefix installs, and the one that is pending already (R101, R103). -/

theorem prefixExt_ne_identity (dest src1 : BitVec 3) (src2 : BitVec 5) : prefixExt dest src1 src2 ≠ Ext.identity := by
  intro h
  have hmask : (0x801F : Word) = 0xFFFF := congrArg Ext.mask h
  exact absurd hmask (by decide)

theorem exec_prefixOp_of_pending {s : State} (hpending : s.ext ≠ Ext.identity) (sign : BitVec 1) (dest src1 : BitVec 3)
    (src2 : BitVec 5) :
    exec (.prefixOp sign dest src1 src2) s =
      .next (s.raise .prefixAfterPrefix (some (encode s.cfg.opcodeMap (.prefixOp sign dest src1 src2)))) :=
  if_pos (State.pending_eq_true.2 hpending)

theorem step_prefix_of_idle {s : State} (hrun : s.halted = none) (heven : s.pc.toNat % 2 = 0)
    (hidle : s.ext = Ext.identity) {sign : BitVec 1} {dest src1 : BitVec 3} {src2 : BitVec 5}
    (hprefix : decode s.cfg.opcodeMap s.fetchWord = .prefixOp sign dest src1 src2) :
    step s = .next (s.commit { ext := prefixExt dest src1 src2 }) := by
  rw [step_of_even_pc hrun heven, hprefix, exec_prefixOp_of_idle hidle]

/-- The record of a second Prefix holds the word it was fetched as, since decoding drops no bit (R101, R221). -/
theorem step_prefix_of_pending {s : State} (hrun : s.halted = none) (heven : s.pc.toNat % 2 = 0)
    (hpending : s.ext ≠ Ext.identity) {sign : BitVec 1} {dest src1 : BitVec 3} {src2 : BitVec 5}
    (hprefix : decode s.cfg.opcodeMap s.fetchWord = .prefixOp sign dest src1 src2) :
    step s = .next (s.raise .prefixAfterPrefix (some s.fetchWord)) := by
  rw [step_of_even_pc hrun heven, hprefix, exec_prefixOp_of_pending hpending, ← hprefix, encode_decode]

/-- dest goes to bits 15:13, src1 to 12:10 and src2 to 9:5 (R101). -/
theorem toNat_prefixExt_bits (dest src1 : BitVec 3) (src2 : BitVec 5) :
    (prefixExt dest src1 src2).bits.toNat = dest.toNat * 2 ^ 13 + src1.toNat * 2 ^ 10 + src2.toNat * 2 ^ 5 := by
  simp only [prefixExt_bits, toNat_append_eq_add, BitVec.toNat_zero]
  omega

theorem prefixExt_bits_low (dest src1 : BitVec 3) (src2 : BitVec 5) :
    (prefixExt dest src1 src2).bits.extractLsb' 0 5 = 0#5 := by
  apply BitVec.eq_of_toNat_eq
  rw [toNat_extractLsb'_eq, toNat_prefixExt_bits, BitVec.toNat_zero]
  omega

theorem prefixExt_bits_middle (dest src1 : BitVec 3) (src2 : BitVec 5) :
    (prefixExt dest src1 src2).bits.extractLsb' 5 10 = dest.extractLsb' 0 2 ++ src1 ++ src2 := by
  apply BitVec.eq_of_toNat_eq
  simp only [toNat_extractLsb'_eq, toNat_prefixExt_bits, toNat_append_eq_add]
  omega

theorem prefixExt_bits_high (dest src1 : BitVec 3) (src2 : BitVec 5) :
    (prefixExt dest src1 src2).bits.extractLsb' 15 1 = dest.extractLsb' 2 1 := by
  apply BitVec.eq_of_toNat_eq
  simp only [toNat_extractLsb'_eq, toNat_prefixExt_bits]
  omega

/-! The fields a nominal immediate keeps of its instruction (R70, R71, R72, R74, R76). -/

theorem bit_eq_of_msb_eq : ∀ {a b : BitVec 1}, a.msb = b.msb → a = b := by
  decide

theorem msb_append_of_pos {k l : Nat} (hk : 0 < k) (hi : BitVec k) (low : BitVec l) : (hi ++ low).msb = hi.msb := by
  simp [BitVec.msb_append, Nat.ne_of_gt hk]

theorem signExtend_append_low {k : Nat} (hi : BitVec k) (low : BitVec 5) :
    ((hi ++ low).signExtend 16).extractLsb' 0 5 = low := by
  refine BitVec.eq_of_getLsbD_eq (fun i hi5 => ?_)
  rw [BitVec.getLsbD_extractLsb', decide_eq_true hi5, Bool.true_and, Nat.zero_add, signExtend_append_getLsbD_low _ _ hi5]

theorem signExtend_append_sign {k : Nat} (hk : 0 < k) (hk10 : k ≤ 10) {hi : BitVec k} {sign : BitVec 1}
    (hsign : hi.msb = sign.msb) (low : BitVec 5) : ((hi ++ low).signExtend 16).extractLsb' 15 1 = sign := by
  apply bit_eq_of_msb_eq
  rw [signBit_msb, ← hsign, ← signExtend_append_getLsbD_sign hk hk10 hi low]
  rfl

/-- All three nominal forms end in src2 and start with the sign. -/
theorem nominal_fields {sign : BitVec 1} {dest src1 : BitVec 3} {src2 : BitVec 5} {nom : Word}
    (hnom : nom = nomLi sign src1 src2 ∨ nom = nom6 sign src2 ∨ nom = nomJal sign dest src1 src2) :
    nom.extractLsb' 0 5 = src2 ∧ nom.extractLsb' 15 1 = sign := by
  rcases hnom with rfl | rfl | rfl
  · exact ⟨signExtend_append_low _ _, signExtend_append_sign (by decide) (by decide) (msb_append_of_pos (by decide) _ _) _⟩
  · exact ⟨signExtend_append_low _ _, signExtend_append_sign (by decide) (by decide) rfl _⟩
  · exact ⟨signExtend_append_low _ _, signExtend_append_sign (by decide) (by decide)
      ((msb_append_of_pos (by decide) _ _).trans (msb_append_of_pos (by decide) _ _)) _⟩

/-- A bit range of a combined immediate: the nominal bits the mask keeps, and the extension's bits (R102). -/
theorem State.combine_extractLsb' (s : State) (nom : Word) (start len : Nat) :
    (s.combine nom).extractLsb' start len =
      nom.extractLsb' start len &&& s.ext.mask.extractLsb' start len ||| s.ext.bits.extractLsb' start len := by
  rw [State.combine, BitVec.extractLsb'_or, BitVec.extractLsb'_and]

/-! The operand mux is the rule's formula (R105). -/

theorem src2_sel_eq_zero_iff (src2 : BitVec 5) : src2.extractLsb' 3 2 = 0#2 ↔ src2.toNat < 8 := by
  rw [← BitVec.toNat_inj, toNat_extractLsb'_eq, BitVec.toNat_zero]
  omega

theorem State.muxOperand_eq_rule (s : State) (allowed : Bool) (sign : BitVec 1) (src2 : BitVec 5) :
    s.muxOperand allowed sign src2 = Rule.operand s allowed sign src2 := by
  have hform : allowed = true ∧ s.regSelect sign src2 = true ↔
      allowed = true ∧ s.ext = Ext.identity ∧ sign = 1#1 ∧ src2.toNat < 8 := by
    rw [State.regSelect_iff, src2_sel_eq_zero_iff]
  rcases s.muxOperand_cases allowed sign src2 with ⟨hallowed, hsel, hmux⟩ | ⟨hnot, hmux⟩
  · rw [hmux]
    exact (if_pos (hform.1 ⟨hallowed, hsel⟩)).symm
  · rw [hmux]
    refine (if_neg fun hselected => ?_).symm
    obtain ⟨hallowed, hsel⟩ := hform.2 hselected
    simp [hallowed, hsel] at hnot

/-! The meanings that read no extension state; their commit writes the identity pair over it (R104, R142, R182). -/

theorem shrStep_ignores_ext {i : Instr} {sign : BitVec 1} {dest src1 : Reg} {src2 : BitVec 5} {s t : State}
    (hrun : t.halted = none) (hstep : shrStep i sign dest src1 src2 s = .next t) (ext : Ext) :
    shrStep i sign dest src1 src2 { s with ext := ext } = .next t := by
  rcases shrStep_cases i sign dest src1 src2 s with ⟨-, hraise⟩ | ⟨v, hentry, hcommit⟩
  · obtain rfl : s.raise _ _ = t := Host.Outcome.next.inj (hraise.symm.trans hstep)
    cases hrun
  · rw [← hstep, hcommit]
    exact shrStep_of_variant (s := { s with ext := ext }) hentry i dest src1

theorem jalStep_ignores_ext (target : PcSelect) (s : State) (ext : Ext) :
    jalStep target { s with ext := ext } = jalStep target s := rfl

end Sys2Proof.Machine

namespace Sys2Proof.Proofs
open Sys2Proof Sys2Proof.Machine

/-- Settles O23: with no extension pending Prefix commits the one of its fields; with one pending it raises the fault. -/
theorem prefixInstallsTheExtension : Obligations.PrefixInstallsTheExtension := by
  intro sign dest src1 src2 s
  refine ⟨toNat_pack _, fun hidle => ?_, fun hpending => exec_prefixOp_of_pending hpending sign dest src1 src2⟩
  refine ⟨_, exec_prefixOp_of_idle hidle sign dest src1 src2, rfl, toNat_prefixExt_bits dest src1 src2, rfl, ?_,
    fun _ => rfl, rfl, rfl⟩
  exact State.commit_reg_none _ _ rfl

/-- Settles O24: the mask keeps the low five bits and the sign of the nominal immediate, and the extension has its fields in
bits 15:5. -/
theorem combinedImmediateBits : Obligations.CombinedImmediateBits := by
  intro s sign dest src1 src2 nom hnom
  obtain ⟨hlow, hsign⟩ := nominal_fields hnom
  refine ⟨hlow, hsign, fun hidle => State.combine_identity hidle nom, fun pd pa pb hext => ?_⟩
  have hmask : s.ext.mask = 0x801F := by rw [hext, prefixExt_mask]
  have hmaskLow : s.ext.mask.extractLsb' 0 5 = BitVec.allOnes 5 := by rw [hmask]; decide
  have hmaskMiddle : s.ext.mask.extractLsb' 5 10 = 0#10 := by rw [hmask]; decide
  have hmaskHigh : s.ext.mask.extractLsb' 15 1 = BitVec.allOnes 1 := by rw [hmask]; decide
  refine ⟨?_, ?_, ?_⟩
  · rw [s.combine_extractLsb', hlow, hmaskLow, hext, prefixExt_bits_low, BitVec.and_allOnes, BitVec.or_zero]
  · rw [s.combine_extractLsb', hmaskMiddle, hext, prefixExt_bits_middle, BitVec.and_zero, BitVec.zero_or]
  · rw [s.combine_extractLsb', hsign, hmaskHigh, hext, prefixExt_bits_high, BitVec.and_allOnes]

/-- Settles O25: the mux is R105's formula whether the register-select form is allowed or not, and an address is a sum of
words. -/
theorem operandMuxAndEffectiveAddresses : Obligations.OperandMuxAndEffectiveAddresses := by
  intro s sign base src2
  refine ⟨s.muxOperand_eq_rule true sign src2, ?_, ?_⟩
  · rw [State.loadAddress, State.muxOperand_eq_rule, BitVec.toNat_add]
  · rw [State.storeAddress, State.muxOperand_eq_rule, BitVec.toNat_add]

/-- Settles O34: the shifts read SHR_MAP and registers, the indirect Jal reads a register and the pc, and the commit of both
writes the identity pair over whatever extension was pending. -/
theorem shiftsAndIndirectJalIgnoreTheExtension : Obligations.ShiftsAndIndirectJalIgnoreTheExtension := by
  intro i s t e hi _ hrun hexec
  cases i with
  | srli => exact shrStep_ignores_ext hrun hexec e
  | srai => exact shrStep_ignores_ext hrun hexec e
  | srl => exact shrStep_ignores_ext hrun hexec e
  | sra => exact shrStep_ignores_ext hrun hexec e
  | slli => exact shrStep_ignores_ext hrun hexec e
  | sll => exact shrStep_ignores_ext hrun hexec e
  | jalr => exact (jalStep_ignores_ext _ s e).trans hexec
  | jalrHigh => exact (jalStep_ignores_ext _ s e).trans hexec
  | _ => exact hi.elim

/-- Settles O49: the first Prefix installs its extension and advances to the second, which finds it pending and records the
word it was decoded from. -/
theorem twoPrefixesInARowFault : Obligations.TwoPrefixesInARowFault := by
  refine ⟨fun s sign sign' dest src1 dest' src1' src2 src2' hrun heven hidle hfirst hsecond => ?_, by decide⟩
  have heven' : (s.pc + 2).toNat % 2 = 0 := (toNat_add_two_mod_two s.pc).trans heven
  exact ⟨_, step_prefix_of_idle hrun heven hidle hfirst, hrun, rfl,
    step_prefix_of_pending (s := s.commit { ext := prefixExt dest src1 src2 }) hrun heven'
      (prefixExt_ne_identity dest src1 src2) hsecond⟩

end Sys2Proof.Proofs

namespace Sys2Proof.Machine
open Sys2Proof

/-! Li and the ALU instructions: one register write and nothing else (R120 to R125). -/

/-- A completed step whose only effect is a register write (R104, R107, R190). -/
theorem State.commit_writesReg (s : State) (d : Reg) (v : Word) :
    Rule.WritesReg s (s.commit { regWrite := some (d, v) }) d v ∧
      Rule.KeepsMem s (s.commit { regWrite := some (d, v) }) ∧
      Rule.Retires s (s.commit { regWrite := some (d, v) }) (s.pc + 2) :=
  ⟨⟨State.commit_reg_dest _ _ _ _ rfl, fun _ hr => State.commit_reg_other _ _ _ _ _ rfl hr⟩, fun _ => rfl,
    rfl, rfl, rfl, rfl⟩

theorem State.operandB_eq_rule (s : State) (sign : BitVec 1) (src2 : BitVec 5) :
    s.operandB sign src2 = Rule.operand s true sign src2 :=
  s.muxOperand_eq_rule true sign src2

/-- What R121 to R125 share: the result of the operation on x[src1] and operand B goes to x[dest]. -/
theorem aluStep_writes (op : Word → Word → Word) (sign : BitVec 1) (dest src1 : Reg) (src2 : BitVec 5) (s : State) :
    ∃ t, aluStep op sign dest src1 src2 s = .next t ∧
      Rule.WritesReg s t dest (op (s.reg src1) (Rule.operand s true sign src2)) ∧
      Rule.KeepsMem s t ∧ Rule.Retires s t (s.pc + 2) := by
  rw [aluStep_eq, State.operandB_eq_rule]
  exact ⟨_, rfl, State.commit_writesReg s dest _⟩

/-- An operation that works bit by bit by `bit` writes the word of those bits (R123, R124, R125). -/
theorem aluStep_writes_bitwise {op : Word → Word → Word} {bit : Bool → Bool → Bool}
    (hop : ∀ a b i, (op a b).getLsbD i = bit (a.getLsbD i) (b.getLsbD i))
    (sign : BitVec 1) (dest src1 : Reg) (src2 : BitVec 5) (s : State) :
    ∃ t v, aluStep op sign dest src1 src2 s = .next t ∧ Rule.WritesReg s t dest v ∧
      (∀ i, v.getLsbD i = bit ((s.reg src1).getLsbD i) ((Rule.operand s true sign src2).getLsbD i)) ∧
      Rule.KeepsMem s t ∧ Rule.Retires s t (s.pc + 2) := by
  obtain ⟨t, hexec, hreg, hkept⟩ := aluStep_writes op sign dest src1 src2 s
  exact ⟨t, _, hexec, hreg, hop _ _, hkept⟩

theorem exec_add_eq (sign : BitVec 1) (dest src1 : Reg) (src2 : BitVec 5) (s : State) :
    exec (.add sign dest src1 src2) s = aluStep (fun a b => a + b) sign dest src1 src2 s := rfl

theorem exec_subr_eq (sign : BitVec 1) (dest src1 : Reg) (src2 : BitVec 5) (s : State) :
    exec (.subr sign dest src1 src2) s = aluStep (subrResult s.cfg.subrOrder) sign dest src1 src2 s := rfl

theorem exec_and_eq (sign : BitVec 1) (dest src1 : Reg) (src2 : BitVec 5) (s : State) :
    exec (.and sign dest src1 src2) s = aluStep (fun a b => a &&& b) sign dest src1 src2 s := rfl

theorem exec_or_eq (sign : BitVec 1) (dest src1 : Reg) (src2 : BitVec 5) (s : State) :
    exec (.or sign dest src1 src2) s = aluStep (fun a b => a ||| b) sign dest src1 src2 s := rfl

theorem exec_xor_eq (sign : BitVec 1) (dest src1 : Reg) (src2 : BitVec 5) (s : State) :
    exec (.xor sign dest src1 src2) s = aluStep (fun a b => a ^^^ b) sign dest src1 src2 s := rfl

/-- A difference of words is the difference of their numbers, modulo 2^16 (R8, R122). -/
theorem sub_eq_ofInt (a b : Word) : a - b = BitVec.ofInt 16 ((a.toNat : Int) - b.toNat) := by
  simp only [Int.sub_eq_add_neg, BitVec.sub_eq_add_neg, BitVec.ofInt_add, BitVec.ofInt_neg, BitVec.ofInt_natCast,
    BitVec.ofNat_toNat, BitVec.setWidth_eq]

theorem subrResult_eq_ofInt (o : SubrOrder) (a b : Word) :
    subrResult o a b =
      BitVec.ofInt 16 (if o = .rs1MinusOperand then (a.toNat : Int) - b.toNat else (b.toNat : Int) - a.toNat) := by
  cases o with
  | rs1MinusOperand => exact sub_eq_ofInt a b
  | operandMinusRs1 => exact sub_eq_ofInt b a

end Sys2Proof.Machine

namespace Sys2Proof.Proofs
open Sys2Proof Sys2Proof.Machine

/-- Settles O29: the three share the ALU's step, and each word operation is its Boolean operation at every bit. -/
theorem logicOperatesBitByBit : Obligations.LogicOperatesBitByBit := by
  intro sign dest src1 src2 s
  rw [exec_and_eq, exec_or_eq, exec_xor_eq]
  exact ⟨⟨toNat_pack _, toNat_pack _, toNat_pack _⟩,
    aluStep_writes_bitwise (fun _ _ _ => BitVec.getLsbD_and) sign dest src1 src2 s,
    aluStep_writes_bitwise (fun _ _ _ => BitVec.getLsbD_or) sign dest src1 src2 s,
    aluStep_writes_bitwise (fun _ _ _ => BitVec.getLsbD_xor) sign dest src1 src2 s⟩

/-- Settles O26: the model's combined immediate is R102's formula on sext_9 of the fields. -/
theorem liWritesTheCombinedImmediate : Obligations.LiWritesTheCombinedImmediate :=
  fun sign dest src1 src2 s =>
    ⟨toNat_pack _, _, exec_li_eq sign dest src1 src2 s, State.commit_writesReg s dest _⟩

/-- Settles O27: the sum of two words is the word of the sum of their numbers. -/
theorem addWrapsModulo65536 : Obligations.AddWrapsModulo65536 := by
  intro sign dest src1 src2 s
  rw [← BitVec.toNat_add, BitVec.ofNat_toNat, BitVec.setWidth_eq, exec_add_eq]
  exact ⟨toNat_pack _, aluStep_writes _ sign dest src1 src2 s⟩

/-- Settles O28: under either order the model's result is the word of the rule's difference. -/
theorem subrSubtractsInTheParametersOrder : Obligations.SubrSubtractsInTheParametersOrder := by
  intro sign dest src1 src2 s
  rw [← subrResult_eq_ofInt, exec_subr_eq]
  exact ⟨toNat_pack _, aluStep_writes _ sign dest src1 src2 s⟩

end Sys2Proof.Proofs

namespace Sys2Proof.Machine
open Sys2Proof

/-! A Shr word through its fields: the word it encodes to, and the shift its selector picks (R140 to R149). -/

theorem encode_decodeShr (m : OpcodeMap) (f : Fields) :
    encode m (decodeShr f) = pack { f with opcode := m.value .shr } := by
  rw [encode, decodeShr_fields]

/-- The model's amount, cut to four bits, is the variant's amount modulo 16 (R143). -/
theorem State.toNat_shiftAmount (s : State) (src2 : BitVec 5) (v : ShiftVariant) :
    (s.shiftAmount src2 v).toNat = Rule.amount s src2 v := by
  have hlow4 : ∀ {w : Nat} (x : BitVec w), (x.extractLsb' 0 4).toNat = x.toNat % 16 := fun x => by simp
  cases v with
  | srli => exact hlow4 src2
  | srai => exact hlow4 src2
  | srl => exact hlow4 _
  | sra => exact hlow4 _
  | sll => exact hlow4 _
  | slli =>
    rw [State.shiftAmount, BitVec.toNat_setWidth_of_le (by decide), toNat_extractLsb'_eq, pow_zero, Nat.div_one]
    rfl

/-- Shr on a selector that SHR_MAP maps to a variant: only x[dest] and the pc change, besides the extension reset (R142). -/
theorem shrStep_shifts {s : State} {sign : BitVec 1} {src2 : BitVec 5} {v : ShiftVariant}
    (hentry : s.cfg.shrMap.entry sign (src2.extractLsb' 3 2) = .variant v) (i : Instr) (dest src1 : Reg) :
    ∃ t, shrStep i sign dest src1 src2 s = .next t ∧
      Rule.WritesReg s t dest (Rule.shift (s.reg src1) (Rule.amount s src2 v) v) ∧
      Rule.KeepsMem s t ∧ Rule.Retires s t (s.pc + 2) := by
  rw [shrStep_of_variant hentry, shiftValue_eq_rule, State.toNat_shiftAmount]
  exact ⟨_, rfl, State.commit_writesReg s dest _⟩

/-- What R144 to R149 share, for the instruction `i` of the fields: its word, with `k` in src2, and the shift by `n`. -/
theorem decodedShr_shifts {s : State} {i : Instr} {sign : BitVec 1} {dest src1 : Reg} {src2 : BitVec 5}
    {v : ShiftVariant} {k n : Nat} (hi : decodeShr ⟨s.cfg.opcodeMap.shr, sign, dest, src1, src2⟩ = i)
    (hentry : s.cfg.shrMap.entry sign (src2.extractLsb' 3 2) = .variant v)
    (hsrc2 : src2.toNat = k) (hamount : Rule.amount s src2 v = n) :
    (encode s.cfg.opcodeMap i).toNat = Rule.word s.cfg.opcodeMap.shr sign.toNat dest.toNat src1.toNat k ∧
      ∃ t, exec i s = .next t ∧ Rule.WritesReg s t dest (Rule.shift (s.reg src1) n v) ∧
        Rule.KeepsMem s t ∧ Rule.Retires s t (s.pc + 2) := by
  subst hi hsrc2 hamount
  rw [encode_decodeShr, exec_decodeShr]
  exact ⟨toNat_pack _, shrStep_shifts hentry _ dest src1⟩

/-! The amount when src2 is a selector above the amount or its register (R141, R143). -/

theorem amount_right_imm (s : State) (bit : BitVec 1) (n : BitVec 4) {v : ShiftVariant} (hv : v = .srli ∨ v = .srai) :
    Rule.amount s (bit ++ n) v = n.toNat := by
  have hlow : (bit ++ n).toNat % 16 = n.toNat := by
    rw [toNat_append_eq_add]
    omega
  rcases hv with rfl | rfl <;> exact hlow

theorem amount_left_imm (s : State) (sel : BitVec 2) (n : BitVec 3) : Rule.amount s (sel ++ n) .slli = n.toNat := by
  rw [Rule.amount, toNat_append_eq_add]
  omega

theorem amount_reg (s : State) (sel : BitVec 2) (r : Reg) {v : ShiftVariant} (hv : v = .srl ∨ v = .sra ∨ v = .sll) :
    Rule.amount s (sel ++ r) v = (s.reg r).toNat % 16 := by
  have hreg : (sel ++ r).extractLsb' 0 3 = r := BitVec.extractLsb'_append_eq_right
  rcases hv with rfl | rfl | rfl <;> simp only [Rule.amount, hreg]

/-- The right shifts by immediate: `bit` is src2[4] (R144, R145). -/
theorem rightImm_shifts {s : State} (hmap : s.cfg.shrMap = ShrMap.default) {i : Instr} {dest src1 : Reg} {n : BitVec 4}
    {bit : BitVec 1} {v : ShiftVariant} {k : Nat}
    (hi : decodeShr ⟨s.cfg.opcodeMap.shr, 0#1, dest, src1, bit ++ n⟩ = i)
    (hbit : v = if bit = 0#1 then .srli else .srai) (hk : bit.toNat * 16 + n.toNat = k) :
    (encode s.cfg.opcodeMap i).toNat = Rule.word s.cfg.opcodeMap.shr 0 dest.toNat src1.toNat k ∧
      ∃ t, exec i s = .next t ∧ Rule.WritesReg s t dest (Rule.shift (s.reg src1) n.toNat v) ∧
        Rule.KeepsMem s t ∧ Rule.Retires s t (s.pc + 2) := by
  have hv : v = .srli ∨ v = .srai := by
    rw [hbit]
    exact ite_eq_or_eq ..
  have hentry : s.cfg.shrMap.entry 0#1 ((bit ++ n).extractLsb' 3 2) = .variant v := by
    rw [hmap, ShrMap.default_entry_sign0, hbit]
  exact decodedShr_shifts (sign := 0#1) hi hentry ((toNat_append_eq_add bit n).trans hk) (amount_right_imm s bit n hv)

/-- The shifts by register: `sel` is src2[4:3] (R146, R147, R149). -/
theorem byReg_shifts {s : State} (hmap : s.cfg.shrMap = ShrMap.default) {i : Instr} {dest src1 r : Reg}
    {sel : BitVec 2} {v : ShiftVariant} {k : Nat}
    (hi : decodeShr ⟨s.cfg.opcodeMap.shr, 1#1, dest, src1, sel ++ r⟩ = i)
    (hsel : ShrMap.default.entry 1#1 sel = .variant v) (hv : v = .srl ∨ v = .sra ∨ v = .sll)
    (hk : sel.toNat * 8 + r.toNat = k) :
    (encode s.cfg.opcodeMap i).toNat = Rule.word s.cfg.opcodeMap.shr 1 dest.toNat src1.toNat k ∧
      ∃ t, exec i s = .next t ∧ Rule.WritesReg s t dest (Rule.shift (s.reg src1) ((s.reg r).toNat % 16) v) ∧
        Rule.KeepsMem s t ∧ Rule.Retires s t (s.pc + 2) :=
  decodedShr_shifts (sign := 1#1) hi (entry_append (hmap ▸ hsel) r) ((toNat_append_eq_add sel r).trans hk)
    (amount_reg s sel r hv)

end Sys2Proof.Machine

namespace Sys2Proof.Proofs
open Sys2Proof Sys2Proof.Machine

/-- Settles O30: a Shr word is dispatched on its own fields; a fault records the word of those fields, and the amount the
model masks to four bits is the rule's. -/
theorem shrDispatchesByTheShiftMap : Obligations.ShrDispatchesByTheShiftMap := by
  intro f s
  rw [exec_decodeShr]
  rcases shrStep_cases (decodeShr f) f.sign f.dest f.src1 f.src2 s with ⟨hentry, hraise⟩ | ⟨v, hentry, -⟩
  · have hword := encode_decodeShr s.cfg.opcodeMap f
    rw [hentry, hraise, raiseBy, hword]
    rfl
  · rw [hentry]
    exact shrStep_shifts hentry (decodeShr f) f.dest f.src1

/-- Settles O31: src2[4] tells the two apart, and src2[3:0] is the amount of both. -/
theorem rightShiftsByImmediate : Obligations.RightShiftsByImmediate := by
  intro dest src1 n s hmap
  exact ⟨rightImm_shifts hmap (decodeShr_sign0 _ 0#1 dest src1 n) rfl (Nat.zero_add _),
    rightImm_shifts hmap (decodeShr_sign0 _ 1#1 dest src1 n) rfl rfl⟩

/-- Settles O32: src2[4:3] tells the three apart, and src2[2:0] names the amount register of each. -/
theorem shiftsByRegister : Obligations.ShiftsByRegister := by
  intro dest src1 r s hmap
  exact ⟨byReg_shifts hmap (decodeShr_sign1 _ 0#2 dest src1 r) rfl (.inl rfl) (Nat.zero_add _),
    byReg_shifts hmap (decodeShr_sign1 _ 1#2 dest src1 r) rfl (.inr (.inl rfl)) rfl,
    byReg_shifts hmap (decodeShr_sign1 _ 3#2 dest src1 r) rfl (.inr (.inr rfl)) rfl⟩

/-- Settles O33: src2[4:3] = 2 selects slli, and src2[2:0] is its amount. -/
theorem leftShiftByImmediate : Obligations.LeftShiftByImmediate := by
  intro dest src1 n s hmap
  have hentry : s.cfg.shrMap.entry 1#1 ((2#2 ++ n).extractLsb' 3 2) = .variant .slli :=
    entry_append (by rw [hmap]; rfl) n
  exact decodedShr_shifts (sign := 1#1) (decodeShr_sign1 _ 2#2 dest src1 n) hentry (toNat_append_eq_add 2#2 n)
    (amount_left_imm s 2#2 n)

end Sys2Proof.Proofs

namespace Sys2Proof.Machine
open Sys2Proof

/-! The effective addresses are the rule's formulas (R160, R161). -/

theorem State.loadAddress_eq_rule (s : State) (sign : BitVec 1) (base : Reg) (src2 : BitVec 5) :
    s.loadAddress sign base src2 = s.reg base + Rule.operand s s.cfg.loadOffsetAlias sign src2 := by
  rw [State.loadAddress, State.muxOperand_eq_rule]

theorem State.storeAddress_eq_rule (s : State) (sign : BitVec 1) (base : Reg) (src2 : BitVec 5) :
    s.storeAddress sign base src2 = s.reg base + Rule.operand s s.cfg.storeOffsetAlias sign src2 := by
  rw [State.storeAddress, State.muxOperand_eq_rule]

/-! The meanings of the loads and stores not stated above: the byte accesses, and Lw at an odd address (R163 to R165). -/

theorem exec_sb_eq (sign : BitVec 1) (data base : Reg) (src2 : BitVec 5) (s : State) :
    exec (.sb sign data base src2) s =
      .next (s.commit { memWrite := some (.byte (s.storeAddress sign base src2) (s.reg data)) }) := rfl

theorem exec_lb_eq (sign : BitVec 1) (dest base : Reg) (src2 : BitVec 5) (s : State) :
    exec (.lb sign dest base src2) s = execLb sign dest base src2 s := rfl

theorem exec_lw_of_odd {sign : BitVec 1} {base : Reg} {src2 : BitVec 5} {s : State}
    (hodd : (s.loadAddress sign base src2).toNat % 2 = 1) (dest : Reg) :
    exec (.lw sign dest base src2) s =
      .next (s.raise .misalignedLoad (some (encode s.cfg.opcodeMap (.lw sign dest base src2)))) := by
  simp [exec_lw_eq, execLw, isOdd_eq_decide, hodd, raiseBy]

/-- A completed step whose only effect is a store (R45, R104, R190). -/
theorem State.commit_store_keeps (s : State) (w : MemWrite) :
    Rule.KeepsRegs s (s.commit { memWrite := some w }) ∧
      Rule.Retires s (s.commit { memWrite := some w }) (s.pc + 2) :=
  ⟨State.commit_reg_none _ _ rfl, rfl, rfl, rfl, rfl⟩

/-- The word Lw writes, as the number R164 reads. -/
theorem Memory.readWord_eq_ofNat (m : Memory) (a : Word) :
    Memory.readWord m a =
      BitVec.ofNat 16 ((Memory.readByte m a).toNat + 256 * (Memory.readByte m (a + 1)).toNat) := by
  rw [← Memory.toNat_readWord, BitVec.ofNat_toNat, BitVec.setWidth_eq]

/-! Memory after an instruction's step: a fault and a commit without a store leave it, and so do the shared operations
built of these two (R45, R142, R185, R221). -/

theorem mem_of_raise {s t : State} {k : FaultKind} {w : Option Word} (h : (.next (s.raise k w) : Result) = .next t) :
    t.mem = s.mem := by
  rw [← Host.Outcome.next.inj h, State.raise_mem]

theorem mem_of_commit {s t : State} {e : Effects} (he : e.memWrite = none)
    (h : (.next (s.commit e) : Result) = .next t) : t.mem = s.mem := by
  rw [← Host.Outcome.next.inj h, State.commit_mem, he, Memory.apply_none]

theorem shrStep_mem {i : Instr} {sign : BitVec 1} {dest src1 : Reg} {src2 : BitVec 5} {s t : State}
    (h : shrStep i sign dest src1 src2 s = .next t) : t.mem = s.mem := by
  rcases shrStep_cases i sign dest src1 src2 s with ⟨-, hraise⟩ | ⟨v, -, hcommit⟩
  · exact mem_of_raise (hraise.symm.trans h)
  · exact mem_of_commit rfl (hcommit.symm.trans h)

theorem reservedSkip_mem {i : Instr} {s t : State} (h : reservedSkip i s = .next t) : t.mem = s.mem := by
  rcases reservedSkip_cases i s with ⟨-, hraise⟩ | ⟨-, hcommit⟩
  · exact mem_of_raise (hraise.symm.trans h)
  · exact mem_of_commit rfl (hcommit.symm.trans h)

theorem exec_prefixOp_mem {sign : BitVec 1} {dest src1 : BitVec 3} {src2 : BitVec 5} {s t : State}
    (h : exec (.prefixOp sign dest src1 src2) s = .next t) : t.mem = s.mem := by
  by_cases hidle : s.ext = Ext.identity
  · exact mem_of_commit rfl ((exec_prefixOp_of_idle hidle sign dest src1 src2).symm.trans h)
  · exact mem_of_raise ((exec_prefixOp_of_pending hidle sign dest src1 src2).symm.trans h)

theorem exec_lw_mem {sign : BitVec 1} {dest base : Reg} {src2 : BitVec 5} {s t : State}
    (h : exec (.lw sign dest base src2) s = .next t) : t.mem = s.mem := by
  rcases Nat.mod_two_eq_zero_or_one (s.loadAddress sign base src2).toNat with heven | hodd
  · exact mem_of_commit rfl ((exec_lw_of_even heven dest).symm.trans h)
  · exact mem_of_raise ((exec_lw_of_odd hodd dest).symm.trans h)

/-- Only Sw and Sb write memory (R45). -/
theorem exec_mem_of_no_store {i : Instr} {s t : State} (hnone : Rule.storedBytes s i = none)
    (h : exec i s = .next t) : t.mem = s.mem := by
  cases i with
  | sw => cases hnone
  | sb => cases hnone
  | prefixOp => exact exec_prefixOp_mem h
  | lw => exact exec_lw_mem h
  | srli => exact shrStep_mem h
  | srai => exact shrStep_mem h
  | srl => exact shrStep_mem h
  | sra => exact shrStep_mem h
  | slli => exact shrStep_mem h
  | sll => exact shrStep_mem h
  | skipcReserved2 => exact reservedSkip_mem h
  | skipcReserved3 => exact reservedSkip_mem h
  | unassigned => exact mem_of_raise h
  | _ => exact mem_of_commit rfl h

/-- Sw changes no byte but the two at its effective address, and none at an odd one (R162). -/
theorem exec_sw_readByte_other {sign : BitVec 1} {data base : Reg} {src2 : BitVec 5} {s t : State} {a : Word}
    (hmem : Memory.wf s.mem = true) (h : exec (.sw sign data base src2) s = .next t)
    (hlow : a ≠ s.storeAddress sign base src2) (hhigh : a ≠ s.storeAddress sign base src2 + 1) :
    Memory.readByte t.mem a = Memory.readByte s.mem a := by
  rcases Nat.mod_two_eq_zero_or_one (s.storeAddress sign base src2).toNat with heven | hodd
  · obtain rfl := Host.Outcome.next.inj ((exec_sw_of_even heven data).symm.trans h)
    exact Memory.readByte_writeWord_other hmem _ hlow hhigh
  · rw [mem_of_raise ((exec_sw_of_odd hodd data).symm.trans h)]

/-- Sb changes no byte but the one at its effective address (R163). -/
theorem exec_sb_readByte_other {sign : BitVec 1} {data base : Reg} {src2 : BitVec 5} {s t : State} {a : Word}
    (hmem : Memory.wf s.mem = true) (h : exec (.sb sign data base src2) s = .next t)
    (hother : a ≠ s.storeAddress sign base src2) : Memory.readByte t.mem a = Memory.readByte s.mem a := by
  obtain rfl := Host.Outcome.next.inj ((exec_sb_eq sign data base src2 s).symm.trans h)
  rw [State.commit_mem, Memory.apply_byte, Memory.readByte_writeByte s.mem hmem, if_neg hother]

end Sys2Proof.Machine

namespace Sys2Proof.Proofs
open Sys2Proof Sys2Proof.Machine

/-- Settles O20: the stores change their own bytes alone, and no other instruction writes memory. -/
theorem onlyTheStoredBytesChange : Obligations.OnlyTheStoredBytesChange := by
  intro i s t a hmem hexec hout
  cases i with
  | sw sign data base src2 =>
    obtain ⟨hlow, hhigh⟩ := hout _ _ rfl
    rw [← State.storeAddress_eq_rule] at hlow hhigh
    exact exec_sw_readByte_other hmem hexec hlow (hhigh rfl)
  | sb sign data base src2 =>
    obtain ⟨hlow, -⟩ := hout _ _ rfl
    rw [← State.storeAddress_eq_rule] at hlow
    exact exec_sb_readByte_other hmem hexec hlow
  | _ => rw [exec_mem_of_no_store rfl hexec]

/-- Settles O36: an even address commits the store of the word, and an odd one raises the fault. -/
theorem swStoresTheWord : Obligations.SwStoresTheWord := by
  rintro sign data base src2 s _ hmem rfl
  rw [← State.storeAddress_eq_rule]
  refine ⟨toNat_pack _, fun heven => ?_, fun hodd => exec_sw_of_odd hodd data⟩
  have hsw := exec_sw_of_even heven data
  refine ⟨_, hsw, ?_, ?_, fun a => exec_sw_readByte_other hmem hsw, State.commit_store_keeps s _⟩
  · rw [State.commit_mem, Memory.apply_word, Memory.readByte_writeWord_low hmem, toNat_lowByte]
  · rw [State.commit_mem, Memory.apply_word, Memory.readByte_writeWord_high hmem, toNat_highByte]

/-- Settles O37: Sb commits the store of the low byte, whatever the parity of its address. -/
theorem sbStoresTheByte : Obligations.SbStoresTheByte := by
  rintro sign data base src2 s _ hmem rfl
  rw [← State.storeAddress_eq_rule]
  have hsb := exec_sb_eq sign data base src2 s
  refine ⟨toNat_pack _, _, hsb, ?_, fun a => exec_sb_readByte_other hmem hsb, State.commit_store_keeps s _⟩
  rw [State.commit_mem, Memory.apply_byte, Memory.readByte_writeByte s.mem hmem, if_pos rfl, toNat_lowByte]

/-- Settles O38: an even address commits the register write of the word there, and an odd one raises the fault. -/
theorem lwLoadsTheWord : Obligations.LwLoadsTheWord := by
  rintro sign dest base src2 s _ rfl
  rw [← State.loadAddress_eq_rule, ← Memory.readWord_eq_ofNat]
  exact ⟨toNat_pack _, fun heven => ⟨_, exec_lw_of_even heven dest, State.commit_writesReg s dest _⟩,
    fun hodd => exec_lw_of_odd hodd dest⟩

/-- Settles O39: sign extension of a byte is the word of its signed reading. -/
theorem lbSignExtends : Obligations.LbSignExtends := by
  rintro sign dest base src2 s _ rfl
  rw [← State.loadAddress_eq_rule, ← BitVec.signExtend]
  exact ⟨toNat_pack _, _, exec_lb_eq sign dest base src2 s, State.commit_writesReg s dest _⟩

/-- Settles O40: zero extension of a byte is the word of its unsigned reading. -/
theorem lbuZeroExtends : Obligations.LbuZeroExtends := by
  rintro sign dest base src2 s _ rfl
  rw [← State.loadAddress_eq_rule, BitVec.ofNat_toNat]
  exact ⟨toNat_pack _, _, exec_lbu_eq sign dest base src2 s, State.commit_writesReg s dest _⟩

end Sys2Proof.Proofs

namespace Sys2Proof.Machine
open Sys2Proof

/-! What a Jal leaves (R181, R183, R190). -/

theorem relBase_eq_rule (s : State) : relBase s.cfg.jalRelBase s.pc = Rule.base s := by
  rw [Rule.base]
  cases s.cfg.jalRelBase <;> rfl

theorem shiftLeft_one_eq_two_mul (w : Word) : w <<< 1 = 2 * w := by
  bv_omega

theorem nextPc_relative_eq_rule (s : State) (w : Word) :
    nextPc s.cfg.jalRelBase s.pc (.relative w) = Rule.base s + 2 * w := by
  rw [nextPc_relative, relBase_eq_rule, shiftLeft_one_eq_two_mul]

/-- Both forms of Jal write x[7] and the pc and nothing else, besides the extension reset (R104, R181). -/
theorem jalStep_links (target : PcSelect) (s : State) :
    ∃ t, jalStep target s = .next t ∧ Rule.WritesReg s t 7#3 (s.pc + 2) ∧ Rule.KeepsMem s t ∧
      Rule.Retires s t (nextPc s.cfg.jalRelBase s.pc target) := by
  refine ⟨_, jalStep_eq target s, ⟨State.commit_reg_dest _ _ _ _ rfl, fun r hr => ?_⟩, fun _ => rfl, rfl, rfl, rfl, rfl⟩
  exact State.commit_reg_other _ _ _ _ _ rfl hr

theorem jalStep_relative_links (w : Word) (s : State) :
    ∃ t, jalStep (.relative w) s = .next t ∧ Rule.WritesReg s t 7#3 (s.pc + 2) ∧ Rule.KeepsMem s t ∧
      Rule.Retires s t (Rule.base s + 2 * w) := by
  rw [← nextPc_relative_eq_rule]
  exact jalStep_links (.relative w) s

/-- A relative target has the parity of the pc, since the base and twice an offset are both even (R183). -/
theorem toNat_relative_mod_two {s : State} (heven : s.pc.toNat % 2 = 0) (w : Word) :
    (Rule.base s + 2 * w).toNat % 2 = 0 := by
  have hbase : (Rule.base s).toNat % 2 = 0 := by
    rw [Rule.base]
    split_ifs
    · exact heven
    · exact (toNat_add_two_mod_two s.pc).trans heven
  bv_omega

theorem jalStep_relative_even (w : Word) (s : State) :
    ∃ t, jalStep (.relative w) s = .next t ∧ Rule.WritesReg s t 7#3 (s.pc + 2) ∧ Rule.KeepsMem s t ∧
      Rule.Retires s t (Rule.base s + 2 * w) ∧ (s.pc.toNat % 2 = 0 → t.pc.toNat % 2 = 0) := by
  obtain ⟨t, hjal, hlink, hmem, hext, hpc, hhalted, hcfg⟩ := jalStep_relative_links w s
  exact ⟨t, hjal, hlink, hmem, ⟨hext, hpc, hhalted, hcfg⟩, fun heven => hpc ▸ toNat_relative_mod_two heven w⟩

/-! The four Jal rows, and a Jal word through its fields (R181 to R183). -/

theorem exec_jalr_eq (dest src1 : BitVec 3) (low : BitVec 4) (s : State) :
    exec (.jalr dest src1 low) s = jalStep (.absolute (s.reg (low.extractLsb' 0 3))) s := rfl

theorem exec_jalrHigh_eq (dest src1 : BitVec 3) (target : Reg) (s : State) :
    exec (.jalrHigh dest src1 target) s = jalStep (.absolute (s.reg target)) s := rfl

theorem exec_jal_eq (dest src1 : BitVec 3) (src2 : BitVec 5) (s : State) :
    exec (.jal dest src1 src2) s = jalStep (.relative (s.combine (nomJal 0#1 dest src1 src2))) s := rfl

theorem exec_jalBack_eq (dest src1 low : BitVec 3) (s : State) :
    exec (.jalBack dest src1 low) s = jalStep (.relative (s.combine (nomJal 1#1 dest src1 (3#2 ++ low)))) s := rfl

/-- src2 is below 24 exactly when its selector src2[4:3] is not 3 (R181). -/
theorem src2_sel_eq_three_iff (src2 : BitVec 5) : src2.extractLsb' 3 2 = 3#2 ↔ ¬ src2.toNat < 24 := by
  rw [← BitVec.toNat_inj, toNat_extractLsb'_eq, BitVec.toNat_ofNat]
  omega

/-- A Jal with sign = 1 whose selector src2[4:3] is below 3 is register-indirect, through either of its rows (R182). -/
theorem exec_decodeJal_indirect {f : Fields} (hsign : f.sign = 1#1) (hsrc2 : f.src2.toNat < 24) (s : State) :
    exec (decodeJal f) s = jalStep (.absolute (s.reg (f.src2.extractLsb' 0 3))) s := by
  have hnot : f.src2.extractLsb' 3 2 ≠ 3#2 := fun h => (src2_sel_eq_three_iff _).1 h hsrc2
  simp only [decodeJal, hsign]
  split_ifs with h0 h4 h2
  · cases h0
  · rw [exec_jalr_eq, BitVec.extractLsb'_extractLsb'_of_le (by decide)]
  · rw [exec_jalrHigh_eq]
  · exact absurd (sel_eq_three_of_bit (src2_bit_eq_sel_bit f.src2 ▸ h4) h2) hnot

/-- Any other Jal is relative, with the offset of all its fields, through either of its rows (R183). -/
theorem exec_decodeJal_relative {f : Fields} (hform : ¬ (f.sign = 1#1 ∧ f.src2.toNat < 24)) (s : State) :
    exec (decodeJal f) s = jalStep (.relative (s.combine (nomJal f.sign f.dest f.src1 f.src2))) s := by
  obtain ⟨op, sign, dest, src1, src2⟩ := f
  rcases BitVec.eq_zero_or_eq_one sign with rfl | rfl
  · exact exec_jal_eq dest src1 src2 s
  · have hsel : src2.extractLsb' 3 2 = 3#2 := (src2_sel_eq_three_iff src2).2 fun hlt => hform ⟨rfl, hlt⟩
    have hsrc2 : 3#2 ++ src2.extractLsb' 0 3 = src2 := hsel ▸ src2_sel_append_low3 src2
    have hrow : decodeJal ⟨op, 1#1, dest, src1, 3#2 ++ src2.extractLsb' 0 3⟩ = .jalBack dest src1 (src2.extractLsb' 0 3) :=
      decodeJal_high op dest src1 (by decide) _
    rw [hsrc2] at hrow
    rw [hrow, exec_jalBack_eq, hsrc2]

end Sys2Proof.Machine

namespace Sys2Proof.Proofs
open Sys2Proof Sys2Proof.Machine

/-- Settles O43: the decoder's row is the one of the word's form, and both forms link and jump alike. -/
theorem jalChoosesItsForm : Obligations.JalChoosesItsForm := by
  intro f s
  split_ifs with hform
  · rw [exec_decodeJal_indirect hform.1 hform.2]
    exact jalStep_links _ s
  · rw [exec_decodeJal_relative hform]
    exact jalStep_relative_links _ s

/-- Settles O44: neither row reads the extension state, and src2[2:0] is the register in both. -/
theorem jalIndirectJumpsToTheRegister : Obligations.JalIndirectJumpsToTheRegister := by
  intro dest src1 s
  refine ⟨fun low => ?_, fun target => ⟨?_, jalStep_links _ s⟩⟩
  · have hlow : (0#1 ++ low).toNat = low.toNat := (toNat_append_eq_add _ _).trans (Nat.zero_add _)
    have hreg : BitVec.ofNat 3 (low.toNat % 8) = low.extractLsb' 0 3 := by
      apply BitVec.eq_of_toNat_eq
      rw [BitVec.toNat_ofNat, toNat_extractLsb'_eq]
      omega
    rw [hreg, ← hlow]
    exact ⟨toNat_pack _, jalStep_links _ s⟩
  · have hsrc2 : (2#2 ++ target).toNat = 16 + target.toNat := toNat_append_eq_add 2#2 target
    rw [← hsrc2]
    exact toNat_pack _

/-- Settles O45: both rows run the relative Jal on the combined offset of their fields. -/
theorem jalRelativeAddsTheOffset : Obligations.JalRelativeAddsTheOffset := by
  intro dest src1 s
  refine ⟨fun src2 => ⟨toNat_pack _, jalStep_relative_even _ s⟩, fun low => ⟨?_, jalStep_relative_even _ s⟩⟩
  have hsrc2 : (3#2 ++ low).toNat = 24 + low.toNat := toNat_append_eq_add 3#2 low
  rw [← hsrc2]
  exact toNat_pack _

end Sys2Proof.Proofs

namespace Sys2Proof.Machine
open Sys2Proof

/-! An assembled Jal (R91 to R93). -/

/-- Half of an even difference, doubled modulo 2^16, is that difference (R93). -/
theorem two_mul_ofInt_half {x : Word} (heven : x.toNat % 2 = 0) : 2 * BitVec.ofInt 16 (x.toInt / 2) = x := by
  have hdvd : (2 : Int) ∣ x.toInt := by
    rw [BitVec.toInt_eq_toNat_cond]
    omega
  calc 2 * BitVec.ofInt 16 (x.toInt / 2) = BitVec.ofInt 16 (2 * (x.toInt / 2)) := (BitVec.ofInt_mul 2 _).symm
    _ = BitVec.ofInt 16 x.toInt := by rw [Int.mul_ediv_cancel' hdvd]
    _ = x := BitVec.ofInt_toInt

/-- The assembled offset reaches an even target from a Jal word at an even pc (R93). -/
theorem base_add_two_mul_jalOffset {s : State} (hpc : s.pc.toNat % 2 = 0) {target : Word} (htarget : target.toNat % 2 = 0) :
    Rule.base s + 2 * BitVec.ofInt 16 (jalOffset s.cfg.jalRelBase s.pc target) = target := by
  have hbase : (Rule.base s).toNat % 2 = 0 := by simpa using toNat_relative_mod_two hpc 0
  have heven : (target - Rule.base s).toNat % 2 = 0 := by bv_omega
  rw [jalOffset, relBase_eq_rule, two_mul_ofInt_half heven, BitVec.add_comm, BitVec.sub_add_cancel]

/-- A native offset is its own nominal offset in Jal's twelve bits (R74, R91). -/
theorem nomJal_of_native {w : Int} (hnative : Rule.nativeJal w) {u : Word} (hu : u = BitVec.ofInt 16 w) :
    nomJal (u.extractLsb' 11 1) (u.extractLsb' 8 3) (u.extractLsb' 5 3) (u.extractLsb' 0 5) = u := by
  have hrange : -2048 ≤ w ∧ w ≤ 2047 := by
    rw [Rule.nativeJal] at hnative
    omega
  obtain ⟨hlo, hhi⟩ := hrange
  have huv : u.toInt = w := hu ▸ toInt_ofInt_word (by omega) (by omega)
  have hun : (u.toNat : Int) = w % 65536 := hu ▸ toNat_ofInt_word w
  apply BitVec.eq_of_toInt_eq
  rw [nomJal, BitVec.toInt_signExtend_of_le (by decide), toInt_append_of_pos (by decide),
    toInt_append_of_pos (by decide), toInt_append_of_pos (by decide), toInt_bit]
  simp only [toNat_extractLsb'_eq, huv]
  omega

/-- No native offset has the bits of the register-indirect form (R91, R181). -/
theorem not_indirect_of_native {w : Int} (hnative : Rule.nativeJal w) {u : Word} (hu : u = BitVec.ofInt 16 w) :
    ¬ (u.extractLsb' 11 1 = 1#1 ∧ (u.extractLsb' 0 5).toNat < 24) := by
  have hun : (u.toNat : Int) = w % 65536 := hu ▸ toNat_ofInt_word w
  rw [← BitVec.toNat_inj, toNat_extractLsb'_eq, toNat_extractLsb'_eq, BitVec.toNat_ofNat]
  rw [Rule.nativeJal] at hnative
  omega

/-- A word is its low five bits, bits 14:5 and bit 15, the ranges of R76. -/
theorem eq_of_immediate_ranges {v u : Word} (hlow : v.extractLsb' 0 5 = u.extractLsb' 0 5)
    (hmiddle : v.extractLsb' 5 10 = u.extractLsb' 5 10) (hhigh : v.extractLsb' 15 1 = u.extractLsb' 15 1) : v = u := by
  simp only [← BitVec.toNat_inj, toNat_extractLsb'_eq] at hlow hmiddle hhigh ⊢
  omega

/-- After the Prefix for `u`, Jal's offset with sign = 0 and the low five bits of `u` combines to `u`: bit 15 is the Prefix's,
since the sign gives none (R76, R92). -/
theorem State.afterPrefix_combine_nomJal (s : State) (u : Word) (dest src1 : BitVec 3) :
    (s.afterPrefix u).combine (nomJal 0#1 dest src1 (u.extractLsb' 0 5)) = u := by
  obtain ⟨-, -, -, hfields⟩ := Proofs.combinedImmediateBits (s.afterPrefix u) 0#1 dest src1 (u.extractLsb' 0 5) _
    (.inr (.inr rfl))
  obtain ⟨hlow, hmiddle, hhigh⟩ := hfields _ _ _ rfl
  have humiddle : (u.extractLsb' 13 3).extractLsb' 0 2 ++ u.extractLsb' 10 3 ++ u.extractLsb' 5 5 = u.extractLsb' 5 10 := by
    simp only [← BitVec.toNat_inj, toNat_append_eq_add, toNat_extractLsb'_eq]
    omega
  have huhigh : (u.extractLsb' 13 3).extractLsb' 2 1 = u.extractLsb' 15 1 := by
    simp only [← BitVec.toNat_inj, toNat_extractLsb'_eq]
    omega
  exact eq_of_immediate_ranges hlow (hmiddle.trans humiddle) (hhigh.trans (BitVec.zero_or.trans huhigh))

/-- Running a relative Jal word whose combined offset is the assembled one jumps to the target (R93, R183). -/
theorem execWords_jal_reaches {s : State} (hm : s.cfg.opcodeMap.wf = true) (hpc : s.pc.toNat % 2 = 0) {target : Word}
    (htarget : target.toNat % 2 = 0) {sign : BitVec 1} {dest src1 : BitVec 3} {src2 : BitVec 5}
    (hform : ¬ (sign = 1#1 ∧ src2.toNat < 24))
    (hoffset : s.combine (nomJal sign dest src1 src2) = BitVec.ofInt 16 (jalOffset s.cfg.jalRelBase s.pc target)) :
    ∃ t, execWords [pack ⟨s.cfg.opcodeMap.value .jal, sign, dest, src1, src2⟩] s = .next t ∧
      Rule.WritesReg s t 7#3 (s.pc + 2) ∧ Rule.KeepsMem s t ∧ Rule.Retires s t target := by
  obtain ⟨t, hjal, hlinks⟩ := jalStep_relative_links (s.combine (nomJal sign dest src1 src2)) s
  rw [hoffset, base_add_two_mul_jalOffset hpc htarget] at hlinks
  refine ⟨t, execWords_singleton ?_, hlinks⟩
  rw [decode_pack_of_name hm .jal, decodeNamed, exec_decodeJal_relative hform, hjal]

theorem lowBit_eq_one_iff (a : Word) : a.extractLsb' 0 1 = 1#1 ↔ a.toNat % 2 = 1 := by
  simpa [isOdd] using isOdd_eq_decide a

theorem emitJal_of_odd {target : Word} (hodd : target.toNat % 2 = 1) (p : Params) (pendingHere : Bool) (place : Word) :
    emitJal p pendingHere place target = .error .encodingRange :=
  if_pos ((lowBit_eq_one_iff target).2 hodd)

theorem emitJal_of_native {target : Word} (heven : target.toNat % 2 = 0) {p : Params} {place : Word}
    (hnative : Rule.nativeJal (jalOffset p.jalRelBase place target)) (pendingHere : Bool) {u : Word}
    (hu : u = BitVec.ofInt 16 (jalOffset p.jalRelBase place target)) :
    emitJal p pendingHere place target =
      .ok [pack ⟨p.opcodeMap.value .jal, u.extractLsb' 11 1, u.extractLsb' 8 3, u.extractLsb' 5 3, u.extractLsb' 0 5⟩] := by
  simp [emitJal, lowBit_eq_one_iff, heven, (nativeJal_iff_rule _).2 hnative, hu]

theorem emitJal_of_not_native {target : Word} (heven : target.toNat % 2 = 0) {p : Params} {place : Word}
    (hnative : ¬ Rule.nativeJal (jalOffset p.jalRelBase place target)) {u : Word}
    (hu : u = BitVec.ofInt 16 (jalOffset p.jalRelBase (place + 2) target)) :
    emitJal p false place target =
      .ok (emittedPrefix p.opcodeMap false u ++
        [pack ⟨p.opcodeMap.value .jal, 0#1, u.extractLsb' 8 3, u.extractLsb' 5 3, u.extractLsb' 0 5⟩]) := by
  rw [← nativeJal_iff_rule, Bool.not_eq_true] at hnative
  simp [emitJal, lowBit_eq_one_iff, heven, hnative, hu, emitWithPrefix_idle]

end Sys2Proof.Machine

namespace Sys2Proof.Proofs
open Sys2Proof Sys2Proof.Machine

/-- Settles O54: the Jal word runs at the place of assembly with a native offset, or after its Prefix with the offset from
there; in both the combined offset is the assembled one, which reaches the target. -/
theorem emittedJalReachesItsTarget : Obligations.EmittedJalReachesItsTarget := by
  intro target s hpc hm hidle
  refine ⟨fun hodd => emitJal_of_odd hodd s.cfg false s.pc, fun heven => ?_⟩
  rw [← jalOffset_eq_rule]
  by_cases hnative : Rule.nativeJal (jalOffset s.cfg.jalRelBase s.pc target)
  · obtain ⟨t, hrun, ⟨hlink, hregs⟩, hmem, -, htpc, hhalted, -⟩ :=
      execWords_jal_reaches hm hpc heven (not_indirect_of_native hnative rfl)
        ((State.combine_identity hidle _).trans (nomJal_of_native hnative rfl))
    exact ⟨_, s.pc, t, emitJal_of_native heven hnative false rfl, hrun, hlink, htpc, hregs, hmem, hhalted,
      fun _ => ⟨rfl, rfl⟩, fun hnot => absurd hnative hnot⟩
  · obtain ⟨u, hu⟩ : ∃ u : Word, u = BitVec.ofInt 16 (jalOffset s.cfg.jalRelBase (s.pc + 2) target) := ⟨_, rfl⟩
    have hpc' : (s.afterPrefix u).pc.toNat % 2 = 0 := (toNat_add_two_mod_two s.pc).trans hpc
    obtain ⟨t, hrun, ⟨hlink, hregs⟩, hmem, -, htpc, hhalted, -⟩ :=
      execWords_jal_reaches (s := s.afterPrefix u) hm hpc' heven (by simp) ((s.afterPrefix_combine_nomJal u _ _).trans hu)
    exact ⟨_, s.pc + 2, t, emitJal_of_not_native heven hnative hu,
      (execWords_append (execWords_emittedPrefix hm hidle false u) _).trans hrun, hlink, htpc,
      fun r hr => (hregs r hr).trans (s.atEmitted_reg false u r), hmem, hhalted,
      fun hnot => absurd hnot hnative, fun _ => ⟨rfl, rfl⟩⟩

end Sys2Proof.Proofs

namespace Sys2Proof.Machine
open Sys2Proof

/-! Skipc: the pc and nothing else (R184 to R192). -/

/-- A completed step that writes neither a register nor memory (R104, R190). -/
theorem State.commit_pc_only (s : State) (sel : PcSelect) :
    Rule.KeepsRegs s (s.commit { pc := sel }) ∧ Rule.KeepsMem s (s.commit { pc := sel }) ∧
      Rule.Retires s (s.commit { pc := sel }) (nextPc s.cfg.jalRelBase s.pc sel) :=
  ⟨State.commit_reg_none _ _ rfl, fun _ => rfl, rfl, rfl, rfl, rfl⟩

/-- A Skipc completes, and its condition on x[src1] and operand B chooses between the two next pcs (R184). -/
theorem skipStep_retires {c : Cond} {sign : BitVec 1} {src1 : Reg} {src2 : BitVec 5} {s : State} {taken : Prop}
    (htaken : c.eval (s.reg src1) (Rule.operand s true sign src2) = true ↔ taken) :
    ∃ t, skipStep c sign src1 src2 s = .next t ∧ Rule.KeepsRegs s t ∧ Rule.KeepsMem s t ∧
      (taken → Rule.Retires s t (s.pc + 4)) ∧ (¬ taken → Rule.Retires s t (s.pc + 2)) := by
  rw [← State.operandB_eq_rule] at htaken
  rcases skipStep_cases c sign src1 src2 s with ⟨heval, hskip⟩ | ⟨heval, hskip⟩
  · obtain ⟨hregs, hmem, hretires⟩ := s.commit_pc_only .plus4
    exact ⟨_, hskip, hregs, hmem, fun _ => hretires, fun hnot => absurd (htaken.1 heval) hnot⟩
  · obtain ⟨hregs, hmem, hretires⟩ := s.commit_pc_only .plus2
    exact ⟨_, hskip, hregs, hmem, fun ht => absurd (htaken.2 ht) (by simp [heval]), fun _ => hretires⟩

/-- The Skipc row of a condition (R186 to R192). -/
def Cond.skipc (sign : BitVec 1) (src1 : Reg) (src2 : BitVec 5) : Cond → Instr
  | .beq => .skipcBeq sign src1 src2
  | .bne => .skipcBne sign src1 src2
  | .blt => .skipcBlt sign src1 src2
  | .bge => .skipcBge sign src1 src2
  | .bltu => .skipcBltu sign src1 src2
  | .bgeu => .skipcBgeu sign src1 src2

/-- A condition's code in the dest field (R184). -/
def Cond.code : Cond → BitVec 3
  | .beq => 0#3
  | .bne => 1#3
  | .blt => 4#3
  | .bge => 5#3
  | .bltu => 6#3
  | .bgeu => 7#3

theorem exec_skipc_eq (c : Cond) (sign : BitVec 1) (src1 : Reg) (src2 : BitVec 5) (s : State) :
    exec (c.skipc sign src1 src2) s = skipStep c sign src1 src2 s := by
  cases c <;> rfl

theorem encode_skipc_eq (c : Cond) (m : OpcodeMap) (sign : BitVec 1) (src1 : Reg) (src2 : BitVec 5) :
    encode m (c.skipc sign src1 src2) = pack ⟨m.skipc, sign, c.code, src1, src2⟩ := by
  cases c <;> rfl

end Sys2Proof.Machine

namespace Sys2Proof.Proofs
open Sys2Proof Sys2Proof.Machine

/-- Settles O46: each row is the skip of its condition, and the model's test of a condition is R186 to R192's. -/
theorem skipcSkipsOnItsCondition : Obligations.SkipcSkipsOnItsCondition := by
  rintro sign src1 src2 s l r rfl rfl i code taken hrow
  obtain ⟨c, rfl, rfl, htaken⟩ : ∃ c : Cond, i = c.skipc sign src1 src2 ∧ code = c.code.toNat ∧
      (c.eval (s.reg src1) (Rule.operand s true sign src2) = true ↔ taken) := by
    rcases hrow with ⟨rfl, rfl, rfl⟩ | ⟨rfl, rfl, rfl⟩ | ⟨rfl, rfl, rfl⟩ | ⟨rfl, rfl, rfl⟩ | ⟨rfl, rfl, rfl⟩ |
      ⟨rfl, rfl, rfl⟩
    · exact ⟨.beq, rfl, rfl, decide_eq_true_iff⟩
    · exact ⟨.bne, rfl, rfl, decide_eq_true_iff⟩
    · exact ⟨.blt, rfl, rfl, decide_eq_true_iff⟩
    · exact ⟨.bge, rfl, rfl, decide_eq_true_iff⟩
    · exact ⟨.bltu, rfl, rfl, decide_eq_true_iff⟩
    · exact ⟨.bgeu, rfl, rfl, decide_eq_true_iff⟩
  rw [encode_skipc_eq, exec_skipc_eq]
  exact ⟨toNat_pack _, skipStep_retires htaken⟩

/-- Settles O47: the two rows share the reserved skip, whose fault records the word of the row's own code. -/
theorem reservedConditionsFollowTheParameter : Obligations.ReservedConditionsFollowTheParameter := by
  intro sign src1 src2 s i code hrow
  have hexec : exec i s = reservedSkip i s := by
    rcases hrow with ⟨rfl, -⟩ | ⟨rfl, -⟩ <;> rfl
  have hword : encode s.cfg.opcodeMap i = s.cfg.opcodeMap.skipc ++ sign ++ code ++ src1 ++ src2 := by
    rcases hrow with ⟨rfl, rfl⟩ | ⟨rfl, rfl⟩ <;> rfl
  rw [hexec]
  rcases reservedSkip_cases i s with ⟨hfault, hraise⟩ | ⟨heval, hcommit⟩
  · refine ⟨fun _ => ?_, fun heval => ?_⟩
    · rw [hraise, raiseBy, hword]
      rfl
    · rw [hfault] at heval
      cases heval
  · refine ⟨fun hfault => ?_, fun _ => ⟨_, hcommit, s.commit_pc_only .plus2⟩⟩
    rw [heval] at hfault
    cases hfault

/-- Settles O50: the Prefix commits its extension and a pc that wraps to 0, where the step runs the word it fetches. -/
theorem prefixAtTheTopExtendsAddressZero : Obligations.PrefixAtTheTopExtendsAddressZero := by
  intro s sign dest src1 src2 hrun htop hidle hprefix
  have heven : s.pc.toNat % 2 = 0 := by rw [htop]; rfl
  have hwrap : s.pc + 2 = 0x0000 := by rw [htop]; rfl
  refine ⟨_, step_prefix_of_idle hrun heven hidle hprefix, hwrap, rfl, ?_⟩
  rw [step_of_even_pc, State.fetchWord, State.commit_pc, nextPc_plus2, hwrap, State.commit_cfg, State.commit_mem,
    Memory.apply_none]
  · exact hrun
  · rw [State.commit_pc, nextPc_plus2, hwrap]
    rfl

end Sys2Proof.Proofs

namespace Sys2Proof.Machine
open Sys2Proof

theorem State.fetchWord_of_keepsMem {s t : State} (hmem : Rule.KeepsMem s t) :
    t.fetchWord = Memory.readWord s.mem t.pc := by
  rw [State.fetchWord, Memory.readWord, Memory.readWord, hmem, hmem]

theorem toNat_add_four_mod_two (a : Word) : (a + 4).toNat % 2 = a.toNat % 2 := by
  bv_omega

end Sys2Proof.Machine

namespace Sys2Proof.Proofs
open Sys2Proof Sys2Proof.Machine

/-- Settles O51: the skip retires at pc + 4 with memory as it was, so the next step runs the word there, whatever word was
skipped. -/
theorem skipOverAPrefixRunsUnprefixed : Obligations.SkipOverAPrefixRunsUnprefixed := by
  intro s sign src1 src2 l r i taken hrun heven hl hr hrow htaken hdecode _
  have hcond := skipcSkipsOnItsCondition sign src1 src2 s l r hl hr i
  have hskips : ∃ t, exec i s = .next t ∧ Rule.KeepsRegs s t ∧ Rule.KeepsMem s t ∧
      (taken → Rule.Retires s t (s.pc + 4)) ∧ (¬ taken → Rule.Retires s t (s.pc + 2)) := by
    rcases hrow with ⟨hi, ht⟩ | ⟨hi, ht⟩ | ⟨hi, ht⟩ | ⟨hi, ht⟩ | ⟨hi, ht⟩ | ⟨hi, ht⟩
    · exact (hcond 0 taken (.inl ⟨hi, rfl, ht⟩)).2
    · exact (hcond 1 taken (.inr (.inl ⟨hi, rfl, ht⟩))).2
    · exact (hcond 4 taken (.inr (.inr (.inl ⟨hi, rfl, ht⟩)))).2
    · exact (hcond 5 taken (.inr (.inr (.inr (.inl ⟨hi, rfl, ht⟩))))).2
    · exact (hcond 6 taken (.inr (.inr (.inr (.inr (.inl ⟨hi, rfl, ht⟩)))))).2
    · exact (hcond 7 taken (.inr (.inr (.inr (.inr (.inr ⟨hi, rfl, ht⟩)))))).2
  obtain ⟨t, hexec, hregs, hmem, hskip, -⟩ := hskips
  obtain ⟨hext, hpc, hhalted, hcfg⟩ := hskip htaken
  have hstep : step s = .next t := by
    rw [step_of_even_pc hrun heven, ← hexec, ← hdecode]
    rfl
  have heven' : t.pc.toNat % 2 = 0 := by rw [hpc, toNat_add_four_mod_two, heven]
  refine ⟨t, hstep, hhalted.trans hrun, hpc, hext, hregs, hmem, ?_⟩
  rw [step_of_even_pc (hhalted.trans hrun) heven', State.fetchWord_of_keepsMem hmem, hpc, hcfg]

end Sys2Proof.Proofs

namespace Sys2Proof.Machine
open Sys2Proof

/-! The next pc of every instruction (R190). -/

/-- What an instruction's step leaves of the pc: a fault keeps it, and a completed step has it at `pc` (R190, R221). -/
def State.FaultsOrGoesTo (s t : State) (pc : Word) : Prop :=
  (∃ k w, t = s.raise k w) ∨ (t.halted = s.halted ∧ t.pc = pc)

theorem goesTo_of_raise {s t : State} {k : FaultKind} {w : Option Word} (pc : Word)
    (h : (.next (s.raise k w) : Result) = .next t) : s.FaultsOrGoesTo t pc :=
  .inl ⟨k, w, (Host.Outcome.next.inj h).symm⟩

theorem goesTo_of_commit {s t : State} {e : Effects} {pc : Word} (hpc : nextPc s.cfg.jalRelBase s.pc e.pc = pc)
    (h : (.next (s.commit e) : Result) = .next t) : s.FaultsOrGoesTo t pc := by
  obtain rfl := Host.Outcome.next.inj h
  exact .inr ⟨s.commit_halted e, hpc⟩

theorem shrStep_goesTo {i : Instr} {sign : BitVec 1} {dest src1 : Reg} {src2 : BitVec 5} {s t : State}
    (h : shrStep i sign dest src1 src2 s = .next t) : s.FaultsOrGoesTo t (s.pc + 2) := by
  rcases shrStep_cases i sign dest src1 src2 s with ⟨-, hraise⟩ | ⟨v, -, hcommit⟩
  · exact goesTo_of_raise _ (hraise.symm.trans h)
  · exact goesTo_of_commit rfl (hcommit.symm.trans h)

theorem reservedSkip_goesTo {i : Instr} {s t : State} (h : reservedSkip i s = .next t) :
    s.FaultsOrGoesTo t (s.pc + 2) := by
  rcases reservedSkip_cases i s with ⟨-, hraise⟩ | ⟨-, hcommit⟩
  · exact goesTo_of_raise _ (hraise.symm.trans h)
  · exact goesTo_of_commit rfl (hcommit.symm.trans h)

theorem exec_prefixOp_goesTo {sign : BitVec 1} {dest src1 : BitVec 3} {src2 : BitVec 5} {s t : State}
    (h : exec (.prefixOp sign dest src1 src2) s = .next t) : s.FaultsOrGoesTo t (s.pc + 2) := by
  by_cases hidle : s.ext = Ext.identity
  · exact goesTo_of_commit rfl ((exec_prefixOp_of_idle hidle sign dest src1 src2).symm.trans h)
  · exact goesTo_of_raise _ ((exec_prefixOp_of_pending hidle sign dest src1 src2).symm.trans h)

theorem exec_sw_goesTo {sign : BitVec 1} {data base : Reg} {src2 : BitVec 5} {s t : State}
    (h : exec (.sw sign data base src2) s = .next t) : s.FaultsOrGoesTo t (s.pc + 2) := by
  rcases Nat.mod_two_eq_zero_or_one (s.storeAddress sign base src2).toNat with heven | hodd
  · exact goesTo_of_commit rfl ((exec_sw_of_even heven data).symm.trans h)
  · exact goesTo_of_raise _ ((exec_sw_of_odd hodd data).symm.trans h)

theorem exec_lw_goesTo {sign : BitVec 1} {dest base : Reg} {src2 : BitVec 5} {s t : State}
    (h : exec (.lw sign dest base src2) s = .next t) : s.FaultsOrGoesTo t (s.pc + 2) := by
  rcases Nat.mod_two_eq_zero_or_one (s.loadAddress sign base src2).toNat with heven | hodd
  · exact goesTo_of_commit rfl ((exec_lw_of_even heven dest).symm.trans h)
  · exact goesTo_of_raise _ ((exec_lw_of_odd hodd dest).symm.trans h)

theorem skipStep_goesTo {c : Cond} {sign : BitVec 1} {src1 : Reg} {src2 : BitVec 5} {s t : State} {taken : Prop}
    [Decidable taken] (htaken : c.eval (s.reg src1) (Rule.operand s true sign src2) = true ↔ taken)
    (h : skipStep c sign src1 src2 s = .next t) : s.FaultsOrGoesTo t (if taken then s.pc + 4 else s.pc + 2) := by
  obtain ⟨t', hskip, -, -, hyes, hno⟩ := skipStep_retires htaken
  obtain rfl : t' = t := Host.Outcome.next.inj (hskip.symm.trans h)
  split_ifs with ht
  · obtain ⟨-, hpc, hhalted, -⟩ := hyes ht
    exact .inr ⟨hhalted, hpc⟩
  · obtain ⟨-, hpc, hhalted, -⟩ := hno ht
    exact .inr ⟨hhalted, hpc⟩

theorem exec_goesTo {i : Instr} {s t : State} (h : exec i s = .next t) : s.FaultsOrGoesTo t (Rule.nextPcOf s i) := by
  cases i with
  | prefixOp => exact exec_prefixOp_goesTo h
  | sw => exact exec_sw_goesTo h
  | lw => exact exec_lw_goesTo h
  | srli => exact shrStep_goesTo h
  | srai => exact shrStep_goesTo h
  | srl => exact shrStep_goesTo h
  | sra => exact shrStep_goesTo h
  | slli => exact shrStep_goesTo h
  | sll => exact shrStep_goesTo h
  | jal => exact goesTo_of_commit (nextPc_relative_eq_rule s _) h
  | jalBack => exact goesTo_of_commit (nextPc_relative_eq_rule s _) h
  | skipcBeq => exact skipStep_goesTo (c := .beq) decide_eq_true_iff h
  | skipcBne => exact skipStep_goesTo (c := .bne) decide_eq_true_iff h
  | skipcBlt => exact skipStep_goesTo (c := .blt) decide_eq_true_iff h
  | skipcBge => exact skipStep_goesTo (c := .bge) decide_eq_true_iff h
  | skipcBltu => exact skipStep_goesTo (c := .bltu) decide_eq_true_iff h
  | skipcBgeu => exact skipStep_goesTo (c := .bgeu) decide_eq_true_iff h
  | skipcReserved2 => exact reservedSkip_goesTo h
  | skipcReserved3 => exact reservedSkip_goesTo h
  | unassigned => exact goesTo_of_raise _ h
  | _ => exact goesTo_of_commit rfl h

/-- A step that answers a next state raised a fault, or completed at the pc R190 gives the fetched instruction. -/
theorem step_goesTo {s t : State} (h : step s = .next t) :
    s.FaultsOrGoesTo t (Rule.nextPcOf s (decode s.cfg.opcodeMap (Rule.wordAtPc s))) := by
  obtain ⟨-, ⟨-, hraise⟩ | ⟨-, hexec⟩⟩ := step_cases h
  · exact .inl ⟨_, _, hraise⟩
  · exact exec_goesTo hexec

/-- The register through which a register-indirect Jal jumps (R182). -/
def jumpReg : Instr → Option Reg
  | .jalr _ _ low => some (low.extractLsb' 0 3)
  | .jalrHigh _ _ target => some target
  | _ => none

theorem toNat_skip_mod_two {pc : Word} (heven : pc.toNat % 2 = 0) (taken : Prop) [Decidable taken] :
    (if taken then pc + 4 else pc + 2).toNat % 2 = 0 := by
  split_ifs
  · rw [toNat_add_four_mod_two, heven]
  · rw [toNat_add_two_mod_two, heven]

/-- Every row of R190's table but the register-indirect Jal keeps an even pc even (R193). -/
theorem nextPcOf_even {s : State} (heven : s.pc.toNat % 2 = 0) {i : Instr} (hi : jumpReg i = none) :
    (Rule.nextPcOf s i).toNat % 2 = 0 := by
  cases i with
  | jalr => cases hi
  | jalrHigh => cases hi
  | jal => exact toNat_relative_mod_two heven _
  | jalBack => exact toNat_relative_mod_two heven _
  | skipcBeq => exact toNat_skip_mod_two heven _
  | skipcBne => exact toNat_skip_mod_two heven _
  | skipcBlt => exact toNat_skip_mod_two heven _
  | skipcBge => exact toNat_skip_mod_two heven _
  | skipcBltu => exact toNat_skip_mod_two heven _
  | skipcBgeu => exact toNat_skip_mod_two heven _
  | _ => exact (toNat_add_two_mod_two s.pc).trans heven

theorem jumpReg_eq_some_iff {i : Instr} {target : Reg} :
    jumpReg i = some target ↔
      (∃ dest src1 low, i = .jalr dest src1 low ∧ low.extractLsb' 0 3 = target) ∨
        ∃ dest src1, i = .jalrHigh dest src1 target := by
  cases i <;> simp [jumpReg]

theorem exec_of_jumpReg {i : Instr} {target : Reg} (hi : jumpReg i = some target) (s : State) :
    exec i s = jalStep (.absolute (s.reg target)) s := by
  rcases jumpReg_eq_some_iff.1 hi with ⟨dest, src1, low, rfl, rfl⟩ | ⟨dest, src1, rfl⟩
  · exact exec_jalr_eq dest src1 low s
  · exact exec_jalrHigh_eq dest src1 target s

end Sys2Proof.Machine

namespace Sys2Proof.Proofs
open Sys2Proof Sys2Proof.Machine

/-- Settles O21: a fault leaves the pc and writes `halted`, and a completed step leaves `halted` and is at the table's pc. -/
theorem pcUpdateLogic : Obligations.PcUpdateLogic := by
  intro s t hstep
  have hrun : s.halted = none := (step_cases hstep).1
  rcases step_goesTo hstep with ⟨k, w, rfl⟩ | ⟨hhalted, hpc⟩
  · exact ⟨fun hnone => by simp at hnone, fun _ => s.raise_pc k w⟩
  · exact ⟨fun _ => hpc, fun hfault => absurd (hhalted.trans hrun) hfault⟩

/-- Settles O22: a fault keeps the pc, and every row of R190's table but the register-indirect Jal adds even numbers to it; that
Jal commits the register's value, at which the next fetch faults. -/
theorem onlyAnIndirectJalMakesThePcOdd : Obligations.OnlyAnIndirectJalMakesThePcOdd := by
  refine ⟨fun s t hstep heven hodd => ?_, fun s target hrun hodd i hi => ?_⟩
  · rcases step_goesTo hstep with ⟨k, w, rfl⟩ | ⟨-, hpc⟩
    · rw [State.raise_pc, heven] at hodd
      cases hodd
    · cases hjump : jumpReg (decode s.cfg.opcodeMap (Rule.wordAtPc s)) with
      | none =>
        rw [hpc, nextPcOf_even heven hjump] at hodd
        cases hodd
      | some target =>
        rcases jumpReg_eq_some_iff.1 hjump with ⟨dest, src1, low, hjalr, -⟩ | ⟨dest, src1, hjalr⟩
        · exact .inl ⟨dest, src1, low, hjalr, by rw [hpc, hjalr]; rfl⟩
        · exact .inr ⟨dest, src1, target, hjalr, by rw [hpc, hjalr]; rfl⟩
  · refine ⟨_, (exec_of_jumpReg (jumpReg_eq_some_iff.2 hi) s).trans (jalStep_eq _ s), rfl, step_of_odd_pc ?_ ?_⟩
    · exact hrun
    · exact hodd

end Sys2Proof.Proofs

namespace Sys2Proof.Machine
open Sys2Proof

/-! The fault a step raises (R221, R222). -/

/-- The kind of the fault recorded in the answer of a step or of a meaning. -/
def raisedKind : Result → Option FaultKind
  | .next t => t.halted.map FaultRecord.kind
  | .fault _ => none
  | .refused _ => none

theorem raisedKind_eq_some_iff {a : Result} {k : FaultKind} :
    raisedKind a = some k ↔ ∃ t r, a = .next t ∧ t.halted = some r ∧ r.kind = k := by
  cases a <;> simp [raisedKind]

@[simp] theorem raisedKind_raise (s : State) (k : FaultKind) (w : Option Word) :
    raisedKind (.next (s.raise k w)) = some k := rfl

@[simp] theorem raisedKind_raiseBy (i : Instr) (k : FaultKind) (s : State) : raisedKind (raiseBy i k s) = some k := rfl

theorem raisedKind_commit {s : State} (hrun : s.halted = none) (e : Effects) : raisedKind (.next (s.commit e)) = none := by
  simp [raisedKind, hrun]

/-- The fault an instruction of opcode name `o` with fields `f` raises at `s`, by R222's causes: five of the names have one
each, and the others never fault. -/
def namedFault (s : State) (f : Fields) : Opcode → Option FaultKind
  | .prefixOp => if s.ext = Ext.identity then none else some .prefixAfterPrefix
  | .shr => if s.cfg.shrMap.entry f.sign (f.src2.extractLsb' 3 2) = .reserved then some .reservedShift else none
  | .sw =>
    if (s.reg f.src1 + Rule.operand s s.cfg.storeOffsetAlias f.sign f.src2).toNat % 2 = 1 then some .misalignedStore else none
  | .lw =>
    if (s.reg f.src1 + Rule.operand s s.cfg.loadOffsetAlias f.sign f.src2).toNat % 2 = 1 then some .misalignedLoad else none
  | .skipc =>
    if s.cfg.reservedCond = .fault ∧ (f.dest = 2#3 ∨ f.dest = 3#3) then some .reservedCondition else none
  | _ => none

theorem exec_prefixOp_raisedKind {s : State} (hrun : s.halted = none) (f : Fields) :
    raisedKind (exec (.prefixOp f.sign f.dest f.src1 f.src2) s) = namedFault s f .prefixOp := by
  by_cases hidle : s.ext = Ext.identity
  · rw [exec_prefixOp_of_idle hidle, raisedKind_commit hrun, namedFault, if_pos hidle]
  · rw [exec_prefixOp_of_pending hidle, raisedKind_raise, namedFault, if_neg hidle]

theorem exec_sw_raisedKind {s : State} (hrun : s.halted = none) (f : Fields) :
    raisedKind (exec (.sw f.sign f.dest f.src1 f.src2) s) = namedFault s f .sw := by
  rw [namedFault, ← State.storeAddress_eq_rule]
  rcases Nat.mod_two_eq_zero_or_one (s.storeAddress f.sign f.src1 f.src2).toNat with heven | hodd
  · rw [exec_sw_of_even heven, raisedKind_commit hrun, if_neg (by simp [heven])]
  · rw [exec_sw_of_odd hodd, raisedKind_raise, if_pos hodd]

theorem exec_lw_raisedKind {s : State} (hrun : s.halted = none) (f : Fields) :
    raisedKind (exec (.lw f.sign f.dest f.src1 f.src2) s) = namedFault s f .lw := by
  rw [namedFault, ← State.loadAddress_eq_rule]
  rcases Nat.mod_two_eq_zero_or_one (s.loadAddress f.sign f.src1 f.src2).toNat with heven | hodd
  · rw [exec_lw_of_even heven, raisedKind_commit hrun, if_neg (by simp [heven])]
  · rw [exec_lw_of_odd hodd, raisedKind_raise, if_pos hodd]

theorem exec_decodeShr_raisedKind {s : State} (hrun : s.halted = none) (f : Fields) :
    raisedKind (exec (decodeShr f) s) = namedFault s f .shr := by
  rw [exec_decodeShr]
  rcases shrStep_cases (decodeShr f) f.sign f.dest f.src1 f.src2 s with ⟨hentry, hraise⟩ | ⟨v, hentry, hcommit⟩
  · rw [hraise, raisedKind_raiseBy, namedFault, if_pos hentry]
  · rw [hcommit, raisedKind_commit hrun, namedFault, if_neg (by simp [hentry])]

theorem exec_decodeJal_raisedKind {s : State} (hrun : s.halted = none) (f : Fields) :
    raisedKind (exec (decodeJal f) s) = none := by
  by_cases hform : f.sign = 1#1 ∧ f.src2.toNat < 24
  · obtain ⟨hsign, hsrc2⟩ := hform
    rw [exec_decodeJal_indirect hsign hsrc2, jalStep_eq, raisedKind_commit hrun]
  · rw [exec_decodeJal_relative hform, jalStep_eq, raisedKind_commit hrun]

/-- A Skipc word has one of the two reserved codes or one of the six conditions (R184, R185). -/
theorem exec_decodeSkipc (f : Fields) (s : State) :
    ((f.dest = 2#3 ∨ f.dest = 3#3) ∧ exec (decodeSkipc f) s = reservedSkip (decodeSkipc f) s) ∨
      (¬ (f.dest = 2#3 ∨ f.dest = 3#3) ∧ ∃ c, exec (decodeSkipc f) s = skipStep c f.sign f.src1 f.src2 s) := by
  unfold decodeSkipc
  split_ifs with h0 h1 h2 h3 h4 h5 h6
  · exact .inr ⟨by simp [h0], .beq, rfl⟩
  · exact .inr ⟨by simp [h1], .bne, rfl⟩
  · exact .inl ⟨.inl h2, rfl⟩
  · exact .inl ⟨.inr h3, rfl⟩
  · exact .inr ⟨by simp [h4], .blt, rfl⟩
  · exact .inr ⟨by simp [h5], .bge, rfl⟩
  · exact .inr ⟨by simp [h6], .bltu, rfl⟩
  · exact .inr ⟨by simp [h2, h3], .bgeu, rfl⟩

theorem exec_decodeSkipc_raisedKind {s : State} (hrun : s.halted = none) (f : Fields) :
    raisedKind (exec (decodeSkipc f) s) = namedFault s f .skipc := by
  rcases exec_decodeSkipc f s with ⟨hcode, hexec⟩ | ⟨hcode, c, hexec⟩
  · rcases reservedSkip_cases (decodeSkipc f) s with ⟨hparam, hraise⟩ | ⟨hparam, hcommit⟩
    · rw [hexec, hraise, raisedKind_raiseBy, namedFault, if_pos ⟨hparam, hcode⟩]
    · rw [hexec, hcommit, raisedKind_commit hrun, namedFault, if_neg (by simp [hparam])]
  · rw [hexec, skipStep, raisedKind_commit hrun, namedFault, if_neg fun h => hcode h.2]

theorem exec_decodeNamed_raisedKind {s : State} (hrun : s.halted = none) (f : Fields) (o : Opcode) :
    raisedKind (exec (decodeNamed f o) s) = namedFault s f o := by
  cases o with
  | prefixOp => exact exec_prefixOp_raisedKind hrun f
  | shr => exact exec_decodeShr_raisedKind hrun f
  | sw => exact exec_sw_raisedKind hrun f
  | lw => exact exec_lw_raisedKind hrun f
  | jal => exact exec_decodeJal_raisedKind hrun f
  | skipc => exact exec_decodeSkipc_raisedKind hrun f
  | _ => exact raisedKind_commit hrun _

/-- Each of the five faults of instructions comes from one opcode name, on one condition (R222). -/
theorem namedFault_eq_some_iff {s : State} {f : Fields} {o : Opcode} {k : FaultKind} :
    namedFault s f o = some k ↔
      (o = .prefixOp ∧ s.ext ≠ Ext.identity ∧ .prefixAfterPrefix = k) ∨
      (o = .shr ∧ s.cfg.shrMap.entry f.sign (f.src2.extractLsb' 3 2) = .reserved ∧ .reservedShift = k) ∨
      (o = .sw ∧ (s.reg f.src1 + Rule.operand s s.cfg.storeOffsetAlias f.sign f.src2).toNat % 2 = 1 ∧
        .misalignedStore = k) ∨
      (o = .lw ∧ (s.reg f.src1 + Rule.operand s s.cfg.loadOffsetAlias f.sign f.src2).toNat % 2 = 1 ∧
        .misalignedLoad = k) ∨
      (o = .skipc ∧ (s.cfg.reservedCond = .fault ∧ (f.dest = 2#3 ∨ f.dest = 3#3)) ∧ .reservedCondition = k) := by
  cases o <;> simp [namedFault]

/-- The fault of the fetch is no instruction's (R223, R224). -/
theorem exec_decode_raisedKind_ne_misalignedFetch {s : State} (hrun : s.halted = none) (w : Word) :
    raisedKind (exec (decode s.cfg.opcodeMap w) s) ≠ some .misalignedFetch := by
  rw [decode]
  rcases decodeFields_cases s.cfg.opcodeMap (unpack w) with ⟨o, -, hnamed⟩ | ⟨-, hunnamed⟩
  · rw [hnamed, exec_decodeNamed_raisedKind hrun]
    simp [namedFault_eq_some_iff]
  · rw [hunnamed, exec_unassigned_eq]
    simp

/-- A faulting step took the fetch fault at an odd pc, with no word, or the fault of the instruction it fetched, with the
fetched word: decoding drops no bit of it (R221, R223). -/
theorem step_raises {s t : State} {r : FaultRecord} (hstep : step s = .next t) (hr : t.halted = some r) :
    ∃ k w, t = s.raise k w ∧ r = ⟨k, s.pc, w⟩ ∧
      ((s.pc.toNat % 2 = 1 ∧ k = .misalignedFetch ∧ w = none) ∨
        (¬ s.pc.toNat % 2 = 1 ∧ k ≠ .misalignedFetch ∧ w = some (Rule.wordAtPc s))) := by
  obtain ⟨hrun, ⟨hodd, rfl⟩ | ⟨heven, hexec⟩⟩ := step_cases hstep
  · rw [isOdd_eq_decide, decide_eq_true_iff] at hodd
    exact ⟨_, _, rfl, (Option.some.inj hr).symm, .inl ⟨hodd, rfl, rfl⟩⟩
  · rw [isOdd_eq_decide, decide_eq_false_iff_not] at heven
    have hkind := exec_decode_raisedKind_ne_misalignedFetch hrun s.fetchWord
    rcases exec_cases (decode s.cfg.opcodeMap s.fetchWord) s with ⟨k, hraise⟩ | ⟨e, hcommit, -⟩
    · rw [hraise, raisedKind_raise] at hkind
      rw [hraise, encode_decode] at hexec
      obtain rfl := Host.Outcome.next.inj hexec
      exact ⟨_, _, rfl, (Option.some.inj hr).symm, .inr ⟨heven, fun h => hkind (congrArg some h), rfl⟩⟩
    · obtain rfl := Host.Outcome.next.inj (hcommit.symm.trans hexec)
      rw [State.commit_halted, hrun] at hr
      cases hr

theorem step_of_halted {s : State} {r : FaultRecord} (hr : s.halted = some r) : step s = .fault (.halted r) := by
  simp only [step, hr, haltedStep]

/-! The causes of R222, by the parity of the pc and the name of the fetched opcode. -/

theorem cause_of_odd_pc {s : State} (hodd : s.pc.toNat % 2 = 1) (k : FaultKind) :
    Rule.cause s k ↔ k = .misalignedFetch := by
  cases k <;> simp [Rule.cause, hodd]

theorem cause_of_unnamed {s : State} (heven : s.pc.toNat % 2 = 0) (hnone : ∀ o, ¬ Rule.opcodeIs s o) (k : FaultKind) :
    Rule.cause s k ↔ k = .illegalOpcode := by
  cases k <;> simp [Rule.cause, heven, hnone]

/-- Under an injective OPCODE_MAP the fetched word has one opcode name at most (R5, R64). -/
theorem opcodeIs_iff {s : State} (hm : s.cfg.opcodeMap.wf = true) {o : Opcode} (ho : Rule.opcodeIs s o) (p : Opcode) :
    Rule.opcodeIs s p ↔ o = p := by
  refine ⟨fun hp => ?_, fun h => h ▸ ho⟩
  have hname : some o = some p := by
    rw [← OpcodeMap.nameOf_value hm o, ← OpcodeMap.nameOf_value hm p, ho, hp]
  exact Option.some.inj hname

/-- src2[4:3] of a word (R60, R141). -/
theorem unpack_src2_sel (w : Word) : (unpack w).src2.extractLsb' 3 2 = w.extractLsb' 3 2 :=
  BitVec.extractLsb'_extractLsb'_of_le (by decide)

/-- The cause of an instruction's fault is its row of `namedFault_eq_some_iff`; the two other causes fail at a named opcode. -/
theorem cause_of_named {s : State} (hm : s.cfg.opcodeMap.wf = true) (heven : s.pc.toNat % 2 = 0) {o : Opcode}
    (ho : Rule.opcodeIs s o) (k : FaultKind) :
    Rule.cause s k ↔ namedFault s (unpack (Rule.wordAtPc s)) o = some k := by
  have hname : ∀ p, Rule.opcodeIs s p ↔ o = p := opcodeIs_iff hm ho
  cases k with
  | misalignedFetch => simp [Rule.cause, namedFault_eq_some_iff, heven]
  | illegalOpcode => simp [Rule.cause, namedFault_eq_some_iff, hname]
  | misalignedLoad => simp [Rule.cause, namedFault_eq_some_iff, heven, hname, unpack]
  | misalignedStore => simp [Rule.cause, namedFault_eq_some_iff, heven, hname, unpack]
  | prefixAfterPrefix => simp [Rule.cause, namedFault_eq_some_iff, heven, hname, Ext.identity]
  | reservedCondition => simp [Rule.cause, namedFault_eq_some_iff, heven, hname, unpack]
  | reservedShift =>
    rw [Rule.cause, ← unpack_src2_sel]
    simp [namedFault_eq_some_iff, heven, hname, unpack]

/-- A step of a running machine raises the fault whose cause holds, at an odd pc, at an opcode value with no name, and at the
word of a name (R222, R224). -/
theorem step_raisedKind_iff_cause {s : State} (hrun : s.halted = none) (hm : s.cfg.opcodeMap.wf = true) (k : FaultKind) :
    raisedKind (step s) = some k ↔ Rule.cause s k := by
  rcases Nat.mod_two_eq_zero_or_one s.pc.toNat with heven | hodd
  · have hexec : step s = exec (decodeFields s.cfg.opcodeMap (unpack (Rule.wordAtPc s))) s := step_of_even_pc hrun heven
    rcases decodeFields_cases s.cfg.opcodeMap (unpack (Rule.wordAtPc s)) with ⟨o, ho, hnamed⟩ | ⟨hnone, hunnamed⟩
    · rw [hexec, hnamed, exec_decodeNamed_raisedKind hrun, cause_of_named hm heven ho]
    · rw [hexec, hunnamed, exec_unassigned_eq, raisedKind_raise, cause_of_unnamed heven hnone, Option.some.injEq, eq_comm]
  · rw [step_of_odd_pc hrun hodd, raisedKind_raise, cause_of_odd_pc hodd, Option.some.injEq, eq_comm]

end Sys2Proof.Machine

namespace Sys2Proof.Proofs
open Sys2Proof Sys2Proof.Machine

/-- Settles O10: a faulting step is one `raise`, at the fetch or by the fetched instruction. -/
theorem faultIsPrecise : Obligations.FaultIsPrecise := by
  refine ⟨fun s t r hstep hr => ?_, fun s r hr => step_of_halted hr⟩
  obtain ⟨k, w, rfl, rfl, ⟨hodd, -, rfl⟩ | ⟨heven, -, rfl⟩⟩ := step_raises hstep hr
  · exact ⟨rfl, rfl, (if_pos hodd).symm⟩
  · exact ⟨rfl, rfl, (if_neg heven).symm⟩

/-- Settles O11: the fault a step raises is the one whose cause holds, and its record's word is missing for the fetch fault
alone. -/
theorem faultsHaveExactlyTheirCauses : Obligations.FaultsHaveExactlyTheirCauses := by
  refine ⟨fun s k hrun hm => ?_, fun s t r hstep hr => ?_, by decide⟩
  · rw [← raisedKind_eq_some_iff]
    exact step_raisedKind_iff_cause hrun hm k
  · obtain ⟨k, w, -, rfl, ⟨-, hk, rfl⟩ | ⟨-, hk, rfl⟩⟩ := step_raises hstep hr
    · exact ⟨rfl, (if_pos hk).symm⟩
    · exact ⟨rfl, (if_neg hk).symm⟩

end Sys2Proof.Proofs

namespace Sys2Proof.Machine
open Sys2Proof

/-! `jal .`: a jump to its own place (R96, R183, R253). -/

/-- The state after a jump from the pc to the pc: the link is written, the extension is reset, the pc stays. -/
def State.jumpedToItself (s : State) : State :=
  s.commit { regWrite := some (7#3, s.pc + 2), pc := .absolute s.pc }

@[simp] theorem State.jumpedToItself_pc (s : State) : s.jumpedToItself.pc = s.pc := rfl
@[simp] theorem State.jumpedToItself_mem (s : State) : s.jumpedToItself.mem = s.mem := rfl
@[simp] theorem State.jumpedToItself_ext (s : State) : s.jumpedToItself.ext = Ext.identity := rfl

theorem State.jumpedToItself_writesReg (s : State) : Rule.WritesReg s s.jumpedToItself 7#3 (s.pc + 2) :=
  ⟨State.commit_reg_dest _ _ _ _ rfl, fun _ hr => State.commit_reg_other _ _ _ _ _ rfl hr⟩

/-- The second jump writes the link that is there already (R253). -/
theorem State.jumpedToItself_idem (s : State) : s.jumpedToItself.jumpedToItself = s.jumpedToItself := by
  have hregs : s.jumpedToItself.jumpedToItself.regs = s.jumpedToItself.regs := Vector.set_set _ (7#3).isLt
  rw [State.mk.injEq]
  exact ⟨hregs, rfl, rfl, rfl, rfl, rfl⟩

/-- From base A the offset 0 leads to the Jal itself (R183). -/
theorem nextPc_relative_zero {b : JalRelBase} (hb : b = .a) (pc : Word) : nextPc b pc (.relative 0) = pc := by
  have hzero : (0 : Word) <<< 1 = 0#16 := BitVec.zero_shiftLeft 1
  rw [nextPc_relative, hb, relBase_a, hzero, BitVec.add_zero]

theorem exec_jal_to_itself {s : State} (hidle : s.ext = Ext.identity) (hbase : s.cfg.jalRelBase = .a) :
    exec (.jal 0 0 0) s = .next s.jumpedToItself := by
  have hoffset : s.combine (nomJal 0#1 0 0 0) = 0 := State.combine_identity hidle _
  rw [exec_jal_eq, hoffset, jalStep_eq, State.jumpedToItself, State.commit, State.commit, nextPc_relative_zero hbase,
    nextPc_absolute]

theorem step_jal_to_itself {s : State} (hrun : s.halted = none) (heven : s.pc.toNat % 2 = 0) (hidle : s.ext = Ext.identity)
    (hbase : s.cfg.jalRelBase = .a) (hjal : decode s.cfg.opcodeMap s.fetchWord = .jal 0 0 0) :
    step s = .next s.jumpedToItself := by
  rw [step_of_even_pc hrun heven, hjal, exec_jal_to_itself hidle hbase]

end Sys2Proof.Machine

namespace Sys2Proof.Proofs
open Sys2Proof Sys2Proof.Machine

/-- Settles O48: after the first jump the same word is at the same pc with no extension pending, and the second jump writes
the link that is there already. -/
theorem jalToItselfIsAFixedPoint : Obligations.JalToItselfIsAFixedPoint := by
  intro s hrun heven hidle hbase hjal
  have hsecond : step s.jumpedToItself = .next s.jumpedToItself.jumpedToItself :=
    step_jal_to_itself hrun heven s.jumpedToItself_ext hbase hjal
  rw [s.jumpedToItself_idem] at hsecond
  exact ⟨_, step_jal_to_itself hrun heven hidle hbase hjal, hsecond, s.jumpedToItself_pc, s.jumpedToItself_mem,
    s.jumpedToItself_writesReg⟩

end Sys2Proof.Proofs

namespace Sys2Proof.Machine
open Sys2Proof

/-! The register an instruction's commit writes (R22, R107). -/

/-- What an instruction that may write `dest` answers: a fault, or a commit whose one register write, if it has one, is to `dest`
(R22, R107, R221). -/
def FaultsOrWrites (s : State) (dest : Option Reg) (a : Result) : Prop :=
  (∃ k w, a = .next (s.raise k w)) ∨ ∃ e, a = .next (s.commit e) ∧ e.regWrite.map Prod.fst = dest

theorem State.commit_reg_of_not_dest {s : State} {e : Effects} {r : Reg} (hr : e.regWrite.map Prod.fst ≠ some r) :
    (s.commit e).reg r = s.reg r := by
  rcases hwrite : e.regWrite with _ | ⟨d, v⟩
  · exact State.commit_reg_none s e hwrite r
  · have hne : r ≠ d := fun h => hr (by rw [hwrite, h]; rfl)
    exact State.commit_reg_other s e d r v hwrite hne

theorem faultsOrWrites_commit {s : State} {e : Effects} {dest : Option Reg} (he : e.regWrite.map Prod.fst = dest) :
    FaultsOrWrites s dest (.next (s.commit e)) :=
  .inr ⟨e, rfl, he⟩

theorem faultsOrWrites_raiseBy (i : Instr) (k : FaultKind) (s : State) (dest : Option Reg) :
    FaultsOrWrites s dest (raiseBy i k s) :=
  .inl ⟨_, _, rfl⟩

/-- The shape of Prefix, Sw and Lw: a fault under a condition, and a commit otherwise (R101, R162, R164). -/
theorem faultsOrWrites_ite {c : Prop} [Decidable c] {i : Instr} {k : FaultKind} {s : State} {e : Effects}
    {dest : Option Reg} (he : e.regWrite.map Prod.fst = dest) :
    FaultsOrWrites s dest (if c then raiseBy i k s else .next (s.commit e)) := by
  split_ifs
  · exact faultsOrWrites_raiseBy i k s dest
  · exact faultsOrWrites_commit he

theorem shrStep_faultsOrWrites (i : Instr) (sign : BitVec 1) (dest src1 : Reg) (src2 : BitVec 5) (s : State) :
    FaultsOrWrites s (some dest) (shrStep i sign dest src1 src2 s) := by
  rcases shrStep_cases i sign dest src1 src2 s with ⟨-, hraise⟩ | ⟨v, -, hcommit⟩
  · exact hraise ▸ faultsOrWrites_raiseBy ..
  · exact hcommit ▸ faultsOrWrites_commit rfl

theorem reservedSkip_faultsOrWrites (i : Instr) (s : State) : FaultsOrWrites s none (reservedSkip i s) := by
  rcases reservedSkip_cases i s with ⟨-, hraise⟩ | ⟨-, hcommit⟩
  · exact hraise ▸ faultsOrWrites_raiseBy ..
  · exact hcommit ▸ faultsOrWrites_commit rfl

/-- R22's table, read off the meanings. -/
theorem exec_faultsOrWrites (i : Instr) (s : State) : FaultsOrWrites s (Rule.destOf i) (exec i s) := by
  cases i with
  | prefixOp => exact faultsOrWrites_ite rfl
  | sw => exact faultsOrWrites_ite rfl
  | lw => exact faultsOrWrites_ite rfl
  | srli => exact shrStep_faultsOrWrites ..
  | srai => exact shrStep_faultsOrWrites ..
  | srl => exact shrStep_faultsOrWrites ..
  | sra => exact shrStep_faultsOrWrites ..
  | slli => exact shrStep_faultsOrWrites ..
  | sll => exact shrStep_faultsOrWrites ..
  | skipcReserved2 => exact reservedSkip_faultsOrWrites ..
  | skipcReserved3 => exact reservedSkip_faultsOrWrites ..
  | unassigned => exact faultsOrWrites_raiseBy ..
  | _ => exact faultsOrWrites_commit rfl

/-! The parameters (R5, R141). -/

theorem step_cfg {s t : State} (h : step s = .next t) : t.cfg = s.cfg := by
  rcases step_next_cases h with ⟨k, w, rfl⟩ | ⟨e, rfl, -⟩
  · exact s.raise_cfg k w
  · exact s.commit_cfg e

/-- R141's table: src2[4] alone selects for sign 0, and src2[4:3] for sign 1. -/
theorem ShrMap.default_entry : ∀ (sign : BitVec 1) (sel : BitVec 2),
    ShrMap.default.entry sign sel =
      .variant (if sign = 0#1 then (if sel.toNat < 2 then .srli else .srai)
        else if sel.toNat = 0 then .srl else if sel.toNat = 1 then .sra else if sel.toNat = 2 then .slli else .sll) := by
  decide

/-! Encoder calls: `jal .`, and operands out of range (R91, R93, R97). -/

/-- From base A a place is at offset 0 from itself (R93). -/
theorem jalOffset_self (a : Word) : jalOffset .a a a = 0 := by
  rw [jalOffset, relBase_a, BitVec.sub_self]
  rfl

/-- `jal .` under the default parameters is one word, wherever it stands (R97). -/
theorem emitJal_default_self {a : Word} (heven : a.toNat % 2 = 0) (pendingHere : Bool) :
    emitJal Params.default pendingHere a a = .ok [0xD000] := by
  have hoffset : jalOffset Params.default.jalRelBase a a = 0 := jalOffset_self a
  have hnative : Rule.nativeJal (jalOffset Params.default.jalRelBase a a) := by
    rw [hoffset]
    exact .inl (by decide)
  have hzero : (0 : Word) = BitVec.ofInt 16 (jalOffset Params.default.jalRelBase a a) := by
    rw [hoffset]
    rfl
  rw [emitJal_of_native heven hnative pendingHere hzero]
  rfl

theorem inImmRange_of_out {v : Int} (hout : v < -32768 ∨ 32767 < v) : inImmRange v = false :=
  decide_eq_false (by omega)

theorem emitLi_of_out {v : Int} (hout : v < -32768 ∨ 32767 < v) (p : Params) (pendingHere : Bool) (rd : Reg) :
    emitLi p pendingHere rd v = .error .encodingRange :=
  if_neg (by simp [inImmRange_of_out hout])

theorem emitImm6_of_out {v : Int} (hout : v < -32768 ∨ 32767 < v) (p : Params) (pendingHere : Bool) (o : Imm6Op)
    (dest src1 : BitVec 3) : emitImm6 p pendingHere o dest src1 v = .error .encodingRange :=
  if_neg (by simp [inImmRange_of_out hout])

theorem emitShiftImm_right_of_out {v : ShiftVariant} (hv : v = .srli ∨ v = .srai) {n : Nat} (hout : 16 ≤ n) (p : Params)
    (rd rs1 : Reg) : emitShiftImm p v rd rs1 n = .error .encodingRange := by
  rcases hv with rfl | rfl
  · exact if_neg (by omega)
  · exact if_neg (by omega)

theorem emitShiftImm_left_of_out {n : Nat} (hout : 8 ≤ n) (p : Params) (rd rs1 : Reg) :
    emitShiftImm p .slli rd rs1 n = .error .encodingRange :=
  if_neg (by omega)

end Sys2Proof.Machine

namespace Sys2Proof.Proofs
open Sys2Proof Sys2Proof.Machine

/-- Settles O16: a fault and a commit both leave the parameters, and the reset machine has the defaults. -/
theorem parametersAreConstant : Obligations.ParametersAreConstant :=
  ⟨fun _ _ => step_cfg, rfl, rfl, ShrMap.default_entry, rfl, rfl, rfl, rfl⟩

/-- Settles O19: a fault writes no register, and a commit, which leaves `halted`, writes R22's destination alone. -/
theorem onlyTheDestinationRegisterChanges : Obligations.OnlyTheDestinationRegisterChanges := by
  intro i s t r hexec hr
  rcases exec_faultsOrWrites i s with ⟨k, w, hraise⟩ | ⟨e, hcommit, hdest⟩
  · obtain rfl := Host.Outcome.next.inj (hraise.symm.trans hexec)
    exact s.raise_reg k w r
  · obtain rfl := Host.Outcome.next.inj (hcommit.symm.trans hexec)
    rcases hr with hother | hfault
    · exact State.commit_reg_of_not_dest (hdest ▸ hother)
    · exact absurd (s.commit_halted e) hfault

/-- Settles O7: `jal .` has the offset 0 at every even place; the other rows are closed calls of the Encoder. -/
theorem workedEncodings : Obligations.WorkedEncodings := by
  refine ⟨by decide, by decide, by decide, by decide, by decide, by decide, by decide, by decide, by decide, ?_, by decide⟩
  exact fun a heven => emitJal_default_self heven false

/-- Settles O58: every call looks at its operand's range before it asks whether an extension is pending. -/
theorem encoderRejectsOutOfRangeOperands : Obligations.EncoderRejectsOutOfRangeOperands :=
  fun s pendingHere =>
    ⟨fun rd _ hout => emitLi_of_out hout s.cfg pendingHere rd,
      fun o dest src1 _ hout => emitImm6_of_out hout s.cfg pendingHere o dest src1,
      fun place _ hodd => emitJal_of_odd hodd s.cfg pendingHere place,
      fun rd rs1 _ hout => ⟨emitShiftImm_right_of_out (.inl rfl) hout s.cfg rd rs1,
        emitShiftImm_right_of_out (.inr rfl) hout s.cfg rd rs1⟩,
      fun rd rs1 _ hout => emitShiftImm_left_of_out hout s.cfg rd rs1⟩

end Sys2Proof.Proofs
